-- ==== Sys2Proof/Word.lean ====
section
/-! DEFINITION. The byte of the bus and the operand types of the host's operations
(00_scope R15, R18; 10_state R39; 30_encoding R96). -/

namespace Sys2Proof

/-- One byte: what the data bus carries (R10 `DATA_W = 8`), bit `i` on line `D[i]` (R66, log 18). -/
abbrev Byte := BitVec 8

/-- The level of a control line: `low` is 0, `high` is 1 (R17). -/
inductive Level where
  | low | high
deriving DecidableEq, Repr, Inhabited

/-- The transaction type (R18). -/
inductive TxType where
  | command | data
deriving DecidableEq, Repr, Inhabited

/-- A rectangle in pixel units; its fields are mathematical integers (R39, R40, log 22). -/
structure Rect where
  x : Int
  y : Int
  w : Int
  h : Int
deriving DecidableEq, Repr, Inhabited

/-- The raw table of `SetGrayScaleTable`: exactly 16 bytes (R206, D33: no other length can be written down). -/
abbrev GrayTable := Vector Byte 16

/-- The closed type `Command` with its 26 variants, in the order of the command table (R181, R183 to R208).
It is the operand of the host operation `command(c)`; operand types by R96, the windows of R198 and R199 as
integers because `refresh` passes integers. -/
inductive Command where
  | setCommandLock (lock : Bool)
  | setDisplayOn (enable : Bool)
  | setClockDivAndOscFreq (div freq : Byte)
  | setMuxRatio (n : Byte)
  | setStartLine (n : Byte)
  | setOffset (n : Byte)
  | setRemapMode (inc colRemap nibbleRemap scanDir splitOddEven dualCom : Bool)
  | vddFunctionSelect (mode : Byte)
  | displayEnhancementA (vsl quality : Byte)
  | setContrastCurrent (v : Byte)
  | masterContrastCurrentControl (v : Byte)
  | setPhaseLength (p1 p2 : Byte)
  | setPrechargeVoltage (v : Byte)
  | setVcomh (v : Byte)
  | setMode (mode : Byte)
  | setColumnAddress (s e : Int)
  | setRowAddress (s e : Int)
  | writeRam
  | readRam
  | enablePartialDisplay (s e : Byte)
  | exitPartialDisplay
  | setGpio (g0 g1 : Byte)
  | setSecondPrechargePeriod (p : Byte)
  | setGrayScaleTable (t : GrayTable)
  | setDefaultGrayScaleTable
  | enableGrayScaleTable
deriving DecidableEq, Repr

end Sys2Proof
end

