-- ==== Sys2Proof/Config.lean ====
section
/-! DEFINITION. The parameters of the block (00_scope R10 to R14), fixed when it is built (10_state R36),
and the values the spec leaves open. A parameter stands in `Config`, which the state carries unchanged
(log 7); an open value is an opaque constant: nothing can be proved of it. -/

namespace Sys2Proof

/-- The delay counts in abstract bus cycles (R13, D4). -/
structure DelayCounts where
  dAs : Nat
  dWl : Nat
  dWh : Nat
  dRdl : Nat
  dRes : Nat
  dBas : Nat
  dBwl : Nat
  dBwh : Nat
deriving DecidableEq, Repr, Inhabited

/-- The parameters of the step relation (R48). -/
structure Config where
  /-- First RAM column of the panel (R11). -/
  colStart : Int
  /-- Exclusive end of the panel's columns (R11); no formula uses it (R73). -/
  colEnd : Int
  /-- First RAM row of the panel (R11). -/
  rowStart : Int
  /-- Exclusive end of the panel's rows (R11); no formula uses it (R73). -/
  rowEnd : Int
  /-- Width of the pixel buffer in pixels (R12). -/
  fbWidth : Nat
  /-- Height of the pixel buffer in pixels (R12). -/
  fbHeight : Nat
  /-- Bytes from one row of the pixel buffer to the next (R12, D3). -/
  fbStride : Nat
  /-- The delay counts (R13). -/
  delays : DelayCounts
  /-- Opcode byte of `SetGpio` (R95, C1, D6). -/
  opcSetGpio : Byte
  /-- Whether the GPIO capability can answer failure (R14, D7). -/
  pinFail : Bool
  /-- The font blob of the host software (R48, R139). -/
  font : List Byte
  /-- What the font's 4-byte offsets count from (R139, N15: not stated, log 23). -/
  fontBase : Nat
  /-- Whether the host's `clear` writes the padding bytes of a row (R135, N14: not stated, log 23). -/
  clearPadding : Bool
deriving DecidableEq, Repr

/-- DESIGN CHOICE (log 7): the delay counts the source does not give, open. -/
opaque Config.openDelays : DelayCounts

/-- DESIGN CHOICE (log 23): the base of the font's offsets, open. -/
opaque Config.openFontBase : Nat

/-- DESIGN CHOICE (log 23): whether `clear` writes padding, open. -/
opaque Config.openClearPadding : Bool

/-- The documented parameters (R11, R12, R14); the open ones are opaque, the font blob is empty (log 23). -/
def Config.documented : Config where
  colStart := 28
  colEnd := 92
  rowStart := 0
  rowEnd := 64
  fbWidth := 256
  fbHeight := 64
  fbStride := 256
  delays := Config.openDelays
  opcSetGpio := 0xB6
  pinFail := true
  font := []
  fontBase := Config.openFontBase
  clearPadding := Config.openClearPadding

/-- Free value: the byte the controller drives at the n-th sample that no listed answer covers
(R161, U7, log 6). -/
opaque Config.freeSample : Nat → Byte

/-- Free choice: for a right pixel above 15, whether the byte of the pair is the masked or the unmasked
candidate (R238, U5, log 10). A function of the two pixel bytes, so that R85 holds. -/
opaque Config.packsMasked : Byte → Byte → Bool

/-- Free value: the coordinates the host's `hline` or `vline` writes when its ends are reversed
(R132, N14, log 23). -/
opaque Config.reversedSpan : Int → Int → List Int

/-- The controller's electrical requirements, named without values, and the length of a delay
(R13, R153, R305): times in nanoseconds, `cyc n` the duration of `delay(n)` at the host clock `clkHz`. -/
structure Timing where
  clkHz : Nat
  tAs : Nat
  tDsw : Nat
  tPwlw : Nat
  tPwhw : Nat
  tAcc : Nat

/-- The hold of each level of `RES`: 100 ms (R13 `T_RES`). -/
def Timing.tRes : Nat := 100000000

/-- The timing obligations of R305 on whoever configures the block; the sequencer checks none of them.
The three batch counts carry the derived bounds of the single write. -/
def Config.meetsTiming (c : Config) (t : Timing) (cyc : Nat → Nat) : Prop :=
  Timing.tRes ≤ cyc c.delays.dRes ∧
  t.tAs ≤ cyc c.delays.dAs ∧
  max t.tDsw t.tPwlw ≤ cyc c.delays.dWl ∧
  t.tPwhw ≤ cyc c.delays.dWh ∧
  t.tAcc ≤ cyc c.delays.dRdl ∧
  t.tAs ≤ cyc c.delays.dBas ∧
  max t.tDsw t.tPwlw ≤ cyc c.delays.dBwl ∧
  t.tPwhw ≤ cyc c.delays.dBwh

/-- The build-time facts of R294 and R296 about the buffer: `FB_STRIDE >= FB_WIDTH`, and a width of whole
4-pixel columns. -/
def Config.bufferOk (c : Config) : Bool :=
  decide (c.fbWidth ≤ c.fbStride) && decide (c.fbWidth % 4 = 0)

end Sys2Proof
end

