-- ==== Sys2Proof/Syntax.lean ====
section
/-! DEFINITION. The operations of the block: one constructor per row of spec/opcode_table.json
(00_scope R2). The 26 controller commands stand for `command(c)` of that variant (43 R181); the ten host
operations follow. `refresh` takes the dirty rectangle; its operand `fb` is the one pixel buffer of the
state (44 R230). -/

namespace Sys2Proof

inductive Instr where
  | setCommandLock (lock : Bool)
  | setDisplayOn (enable : Bool)
  | setClockDivAndOscFreq (div freq : Byte)
  | setMuxRatio (n : Byte)
  | setStartLine (n : Byte)
  | setOffset (n : Byte)
  | setRemapMode (inc colRemap nibbleRemap scanDir splitOddEven dualCom : Bool)
  | vddFunctionSelect (mode : Byte)
  | displayEnhancementA (vsl quality : Byte)
  | setContrastCurrent (v : Byte)
  | masterContrastCurrentControl (v : Byte)
  | setPhaseLength (p1 p2 : Byte)
  | setPrechargeVoltage (v : Byte)
  | setVcomh (v : Byte)
  | setMode (mode : Byte)
  | setColumnAddress (s e : Int)
  | setRowAddress (s e : Int)
  | writeRam
  | readRam
  | enablePartialDisplay (s e : Byte)
  | exitPartialDisplay
  | setGpio (g0 g1 : Byte)
  | setSecondPrechargePeriod (p : Byte)
  | setGrayScaleTable (t : GrayTable)
  | setDefaultGrayScaleTable
  | enableGrayScaleTable
  | reset
  | write (type : TxType) (byte : Byte)
  | multiWriteBegin
  | multiWriteByte (byte : Byte)
  | multiWriteEnd
  | read (type : TxType)
  | rawCommand (opcode : Byte) (args : List Byte)
  | command (c : Command)
  | bestFitX (r : Rect) (minSpan : Int)
  | refresh (dirty : Rect)
deriving DecidableEq, Repr

end Sys2Proof
end

