-- ==== Sys2Proof/Machine/State.lean ====
section
/-! DEFINITION. The state of the block as plain data (10_state R20 to R49), with the inputs the host, the
GPIO capability and the controller will give next (00_scope R9), the two reset states of R49, and the
reasons a step can stop. -/

namespace Sys2Proof.Machine

/-! ## Lines, latches and the observations -/

/-- The five control lines (R10, R20). -/
inductive Line where
  | res | cs | wr | rd | dc
deriving DecidableEq, Repr, Inhabited

/-- The direction of the data bus (R20): `output` is the spec's `Out`, `input` its `In`. -/
inductive Dir where
  | output | input
deriving DecidableEq, Repr, Inhabited

/-- A latch holds a definite value or ⊥, written `none` (R21, log 2). -/
abbrev Latch (α : Type) := Option α

/-- The seven output latches (R20). -/
structure Latches where
  res : Latch Level
  cs : Latch Level
  wr : Latch Level
  rd : Latch Level
  dc : Latch Level
  dout : Latch Byte
  dir : Latch Dir
deriving DecidableEq, Repr, Inhabited

/-- All seven latches ⊥: from power-on, and after a transaction aborts (R21, R26, R265). -/
def Latches.unknown : Latches where
  res := none
  cs := none
  wr := none
  rd := none
  dc := none
  dout := none
  dir := none

/-- A primitive step of the sequencer (R17). -/
inductive Prim where
  | pin (line : Line) (level : Level)
  | dir (d : Dir)
  | drive (byte : Byte)
  | sample
  | delay (n : Nat)
deriving DecidableEq, Repr

/-- An event of the pin event trace (R46). `fail p` is the spec's `Fail(e)`: the step that failed; a failed
sample has no value (log 27). -/
inductive Event where
  | pin (line : Line) (level : Level)
  | dir (d : Dir)
  | drive (byte : Byte)
  | sample (v : Byte)
  | delay (n : Nat)
  | fail (p : Prim)
deriving DecidableEq, Repr

/-- Which strobe a transfer was made under (R91). -/
inductive Strobe where
  | w | r
deriving DecidableEq, Repr

/-- A transfer of the transfer trace (R47): the byte is ⊥ when the block did not drive a definite one. -/
structure Transfer where
  strobe : Strobe
  dc : Latch Level
  byte : Latch Byte
deriving DecidableEq, Repr

/-- What one operation does, step by step: a primitive step, or the control state it leaves
(the `then:` lines of R151, R157, R159). -/
inductive Micro where
  | prim (p : Prim)
  | setBatch (isOpen : Bool)
  | setReady
deriving DecidableEq, Repr

/-! ## Control state -/

/-- The session state (R34). -/
inductive Session where
  | unreset | ready | broken
deriving DecidableEq, Repr, Inhabited

/-- The sequencer position (R28): idle between operations, else the operation the host issued and the index
of its next primitive step, counted through the nested operations. -/
inductive Seq where
  | idle
  | busy (op : Instr) (k : Nat)
deriving DecidableEq, Repr

/-- The kinds of fatal fault (R261 codes 2 and 3). -/
inductive FatalKind where
  | bounds | contract
deriving DecidableEq, Repr

/-- What an operation returns to the host (R31). -/
inductive Result where
  | ok
  | okByte (v : Byte)
  | okRect (r : Rect)
  | errPin
deriving DecidableEq, Repr

/-! ## Inputs -/

/-- The answer of the GPIO capability to a fallible step (R262). -/
inductive GpioAnswer where
  | ok | fail
deriving DecidableEq, Repr, Inhabited

/-- A 1-bit-per-pixel bitmap of the host software (41 R137). -/
structure MonochromeSprite where
  width : Nat
  height : Nat
  stride : Nat
  data : List Byte
deriving DecidableEq, Repr

/-- A colour the host draws with: a pixel value in 0..15, the host's duty (R61, R282, log 34). -/
abbrev Color := BitVec 4

/-- A call of the host software that writes the pixel buffer (41 R131 to R136, R141). -/
inductive Draw where
  | setPixel (x y : Int) (color : Color)
  | hline (x1 x2 y : Int) (color : Color)
  | vline (x y1 y2 : Int) (color : Color)
  | rect (r : Rect) (color : Color)
  | clear (color : Color)
  | blitMonochrome (sprite : MonochromeSprite) (x y : Int) (color : Color)
  | text (string : List Byte) (x baselineY : Int) (color : Color)
deriving DecidableEq, Repr

/-- A move of the host (60 R282): it issues an operation, or writes the pixel buffer. What the host must do
beyond the form of its moves is log 34. -/
inductive HostMove where
  | op (i : Instr)
  | draw (d : Draw)
deriving DecidableEq, Repr

/-! ## The pixel buffer -/

/-- The bytes of the pixel buffer (R41, R60) as (index, byte) pairs in one canonical form: indexes strictly
rising, no entry equal to what an unlisted index reads as. -/
abbrev Memory := List Host.Cell

/-- What an unlisted index reads as. DESIGN CHOICE (log 9): the host put zeros there (R62 leaves the content
to the host). -/
def unlistedByte : Byte := 0

/-! ## The state -/

structure State where
  /-- The seven output latches (R20). -/
  pins : Latches
  /-- The sequencer position (R28). -/
  seq : Seq
  /-- The session state (R34). -/
  session : Session
  /-- The batch flag `batch_open` (R35). -/
  batchOpen : Bool
  /-- The fatal flag (R32): `none` is false, `some k` is true, set by `Fatal(k)` (log 12). -/
  fatal : Option FatalKind
  /-- The pin event trace (R46), oldest event first. -/
  trace : List Event
  /-- The pixel buffer (R41). -/
  fb : Memory
  /-- The parameters (R36, R48); no step changes them (log 7). -/
  cfg : Config
  /-- The model's own: what the last operation returned to the host (R31, log 14). -/
  result : Option Result
  /-- The model's own: the next answers of the GPIO capability; past the list it answers ok (R262, log 5). -/
  gpio : List GpioAnswer
  /-- The model's own: the bytes the controller drives at the next samples (R161, log 6). -/
  samples : List Byte
  /-- The model's own: how many free sample bytes were drawn past that list (log 6). -/
  draws : Nat
  /-- The model's own: the moves the host makes next (R9, R282, log 3). -/
  script : List HostMove
deriving DecidableEq, Repr

/-- The power-on state: the power-on column of R49 (D9); nothing has executed. -/
def State.powerOn : State where
  pins := Latches.unknown
  seq := .idle
  session := .unreset
  batchOpen := false
  fatal := none
  trace := []
  fb := []
  cfg := Config.documented
  result := none
  gpio := []
  samples := []
  draws := 0
  script := []

/-- The machine right after reset: the column "after `reset` completes" of R49, from power-on with every
answer ok (log 1). `DC` and `DOUT` are ⊥ (R25, R26); the pin event trace holds the eleven events of
R152 (f). -/
def State.reset : State where
  pins :=
    { res := some .high
      cs := some .low
      wr := some .high
      rd := some .high
      dc := none
      dout := none
      dir := some .output }
  seq := .idle
  session := .ready
  batchOpen := false
  fatal := none
  trace :=
    [.pin .res .high, .delay Config.documented.delays.dRes,
     .pin .res .low, .delay Config.documented.delays.dRes,
     .pin .res .high, .delay Config.documented.delays.dRes,
     .dir .output, .pin .cs .high, .pin .wr .high, .pin .rd .high, .pin .cs .low]
  fb := []
  cfg := Config.documented
  result := some .ok
  gpio := []
  samples := []
  draws := 0
  script := []

/-! ## How a step can stop -/

/-- The faults: the machine, block and host together, cannot go on. -/
inductive Fault where
  /-- Raised by `step` when a fatal fault has halted the block and the host issues nothing: the sequencer
  "executes no further step" (R32, R263). Safe: the spec gives no continuation. -/
  | halted (kind : FatalKind)
  /-- Raised by `step` when the host's next move is a write to the pixel buffer while the sequencer is not
  idle: its call has not returned (R80, R282). Safe: the spec gives the host no such move. -/
  | hostBlocked
  /-- Raised by the host's drawing calls for a pixel outside the buffer (R131, R142): the host software halts.
  Safe: the spec calls it fatal. -/
  | hostBounds (x y : Int)
  /-- Raised by the host's `glyph_info` for a code outside 0x20..0x7F (R140, U8): the host software halts.
  Safe: the spec asks for a fault. -/
  | hostGlyph (code : Byte)
  /-- Raised by the host's `blit_monochrome` for a byte outside the sprite's data (R142). Safe. -/
  | hostSprite (index : Nat)
  /-- Raised by the host's `glyph_info` for a byte outside the font blob (R142). Safe. -/
  | hostFont (index : Nat)
deriving DecidableEq, Repr

/-- The refusals of R261, each where the spec gives the operation no meaning; all safe. -/
inductive Refusal where
  /-- Raised by `exec` for an instruction without a meaning in the model; safe. None is left. -/
  | notModelled (mnemonic : String)
  /-- Raised by every operation when `fatal` is set (R32, R261). -/
  | halted
  /-- Raised by every operation but `reset` and `best_fit_x` when the session is not ready (R267). -/
  | notReady
  /-- Raised by the batch operations without an open batch, and by the others with one (R268). -/
  | batchOrder
  /-- Raised by `best_fit_x` and `refresh` when `w <= 0` or `h <= 0` (R269). -/
  | emptyRect
  /-- Raised by `SetMode` outside its admitted domain (R270). -/
  | modeDomain
deriving DecidableEq, Repr

end Sys2Proof.Machine
end

