-- ==== Sys2Proof/Machine/Ops.lean ====
section
/-! DEFINITION. The named operations over the state: bytes of the pixel buffer, primitive steps and their
failure, running the steps of an operation, how an operation begins and ends, `PinError` and `Fatal`
(00_scope R17, 20_memory R69, 60_exceptions R262 to R266). -/

namespace Sys2Proof.Machine

abbrev Answer := Host.Outcome State Fault Refusal

/-! ## The pixel buffer (20_memory) -/

/-- Indexes strictly rising from `lo` on, no entry equal to `unlistedByte`. -/
def Memory.wfFrom : Nat → Memory → Bool
  | _, [] => true
  | lo, (a, b) :: rest => decide (lo ≤ a) && (b != unlistedByte && Memory.wfFrom (a + 1) rest)

/-- The canonical form of a memory. -/
def Memory.wf (m : Memory) : Bool := Memory.wfFrom 0 m

/-- `MemRead(k, 1)` (R17). -/
def memRead : Memory → Nat → Byte
  | [], _ => unlistedByte
  | (a, b) :: rest, k => if a = k then b else memRead rest k

/-- `MemWrite(k, 1, v)`, performed by the host only (R17); keeps the canonical form. -/
def memWrite : Memory → Nat → Byte → Memory
  | [], k, v => if v = unlistedByte then [] else [(k, v)]
  | (a, b) :: rest, k, v =>
    if k < a then (if v = unlistedByte then (a, b) :: rest else (k, v) :: (a, b) :: rest)
    else if k = a then (if v = unlistedByte then rest else (k, v) :: rest)
    else (a, b) :: memWrite rest k v

/-- The bytes of a storage array as a memory, the first at index `at0` (R130 `new` binds the array). -/
def memOfBytes : Nat → List Byte → Memory
  | _, [] => []
  | at0, b :: rest => if b = unlistedByte then memOfBytes (at0 + 1) rest else (at0, b) :: memOfBytes (at0 + 1) rest

/-- The coordinates name a pixel of the buffer (R69: the check is on the coordinates, C6). -/
def inBuffer (cfg : Config) (x y : Int) : Bool :=
  decide (0 ≤ x) && decide (x < cfg.fbWidth) && decide (0 ≤ y) && decide (y < cfg.fbHeight)

/-- The byte index of a pixel: `y*FB_STRIDE + x` (R60). -/
def pixelIndex (cfg : Config) (x y : Int) : Nat := (y * cfg.fbStride + x).toNat

/-- `FbRead(x, y)` (R69): `none` is `Fatal(Bounds)`. -/
def fbRead (cfg : Config) (fb : Memory) (x y : Int) : Option Byte :=
  if inBuffer cfg x y then some (memRead fb (pixelIndex cfg x y)) else none

/-! ## Primitive steps (R17, R46) -/

/-- What an event does to the latches: a step writes its latch, a failed step leaves all seven ⊥ (R265). -/
def Latches.after (l : Latches) : Event → Latches
  | .pin .res v => { l with res := some v }
  | .pin .cs v => { l with cs := some v }
  | .pin .wr v => { l with wr := some v }
  | .pin .rd v => { l with rd := some v }
  | .pin .dc v => { l with dc := some v }
  | .dir d => { l with dir := some d }
  | .drive b => { l with dout := some b }
  | .sample _ => l
  | .delay _ => l
  | .fail _ => Latches.unknown

/-- The GPIO capability is asked before every step but `delay` (R150 c, R262, D24). -/
def Prim.fallible : Prim → Bool
  | .pin _ _ => true
  | .dir _ => true
  | .drive _ => true
  | .sample => true
  | .delay _ => false

/-- The answer to the next fallible step; with `PIN_FAIL` false every answer is ok (R262, D7, log 5). -/
def State.answer (s : State) : GpioAnswer :=
  if s.cfg.pinFail then s.gpio.headD .ok else .ok

/-- The byte the controller drives at the next sample (R161, log 6). -/
def State.sampleByte (s : State) : Byte :=
  match s.samples with
  | v :: _ => v
  | [] => Config.freeSample s.draws

/-- The event a step appends when it succeeds (R46). -/
def Prim.event (p : Prim) (s : State) : Event :=
  match p with
  | .pin line level => .pin line level
  | .dir d => .dir d
  | .drive b => .drive b
  | .sample => .sample s.sampleByte
  | .delay n => .delay n

/-- The position after the next primitive step (R28). -/
def Seq.advance : Seq → Seq
  | .idle => .idle
  | .busy op k => .busy op (k + 1)

/-- The state has asked the GPIO capability once. -/
def State.asked (s : State) : State := { s with gpio := s.gpio.tail }

/-- The controller has answered one sample. -/
def State.sampled (s : State) : State :=
  { s with
    samples := s.samples.tail
    draws := if s.samples.isEmpty then s.draws + 1 else s.draws }

/-- Append an event: the trace grows, its latch is written, the position advances (R17, R28, R46). -/
def State.record (s : State) (e : Event) : State :=
  { s with
    pins := s.pins.after e
    trace := s.trace ++ [e]
    seq := s.seq.advance }

/-- The effect of a step that succeeds. -/
def Prim.effect (p : Prim) (s : State) : State :=
  match p with
  | .pin _ _ => (s.asked).record (p.event s)
  | .dir _ => (s.asked).record (p.event s)
  | .drive _ => (s.asked).record (p.event s)
  | .sample => ((s.asked).sampled).record (p.event s)
  | .delay _ => s.record (p.event s)

/-- `raise PinError` at the step `p` (R265, in its order): the rest is dropped, the latches are ⊥, the session
is broken, the batch closed, the position idle, and the host receives the error. -/
def raisePinError (p : Prim) (s : State) : State :=
  { s with
    trace := s.trace ++ [.fail p]
    pins := Latches.unknown
    session := .broken
    batchOpen := false
    seq := .idle
    result := some .errPin }

/-- `raise Fatal(kind)` (R263, R264): the flag is set and the sequencer stops where it stands; the latches
keep their values and no result is returned. -/
def raiseFatal (kind : FatalKind) (s : State) : State := { s with fatal := some kind }

/-! ## Running an operation -/

/-- How far the steps of an operation came: all done, or aborted by a `PinError`. -/
inductive Flow where
  | done (s : State)
  | aborted (s : State)
deriving DecidableEq, Repr

/-- One primitive step: ask if it is fallible, then take effect or fail (R262). -/
def attempt (p : Prim) (s : State) : Flow :=
  if p.fallible && s.answer == .fail then .aborted (raisePinError p s.asked) else .done (p.effect s)

/-- The steps of an operation, strictly in order; a failed step drops the rest (R150 a, b). -/
def run : List Micro → State → Flow
  | [], s => .done s
  | .prim p :: rest, s =>
    match attempt p s with
    | .done t => run rest t
    | .aborted t => .aborted t
  | .setBatch isOpen :: rest, s => run rest { s with batchOpen := isOpen }
  | .setReady :: rest, s => run rest { s with session := .ready }

/-- The host issues an operation: the position is its first step, and no result is out (R28, R31). -/
def State.start (s : State) (op : Instr) : State := { s with seq := .busy op 0, result := none }

/-- The last step of an operation: the position is idle and the result is delivered (R28, R31). -/
def State.finish (s : State) (r : Result) : State := { s with seq := .idle, result := some r }

/-- An admitted operation runs its steps and returns `r`, or the `PinError` of a step. -/
def complete (op : Instr) (steps : List Micro) (r : Result) (s : State) : Answer :=
  match run steps (s.start op) with
  | .done t => .next (t.finish r)
  | .aborted t => .next t

/-- An operation that meets a fatal fault: the block halts inside it (R263, R264). -/
def halt (op : Instr) (kind : FatalKind) (s : State) : Answer := .next (raiseFatal kind (s.start op))

/-! ## The host's next move -/

/-- The host places an operation as its next move (log 3). -/
def State.issue (s : State) (i : Instr) : State := { s with script := .op i :: s.script }

/-- A step with no move of the host: the block waits (R49); a halted block is stuck (R32). -/
def waitStep (s : State) : Answer :=
  match s.fatal with
  | some kind => .fault (.halted kind)
  | none => .next s

end Sys2Proof.Machine
end

