-- ==== Sys2Proof/Machine/Flags.lean ====
section
/-! DEFINITION. The control state an operation checks before its first step, and its order (60 R261, R267
to R272, D31). The block has no arithmetic condition codes, so no flag is computed (10_state R33). -/

namespace Sys2Proof.Machine

/-- Every operation requires `fatal = false` (R261 `Halted`). -/
def refuseHalted (s : State) : Option Refusal :=
  if s.fatal.isSome then some .halted else none

/-- Every operation but `reset` and `best_fit_x` requires a ready session, after the check for `Halted`
(R267). -/
def refuseSession (s : State) : Option Refusal :=
  match refuseHalted s with
  | some r => some r
  | none => if s.session = .ready then none else some .notReady

/-- The operations outside a batch: refused with an open batch (R268), after the checks above. -/
def refuseSingle (s : State) : Option Refusal :=
  match refuseSession s with
  | some r => some r
  | none => if s.batchOpen then some .batchOrder else none

/-- The operations inside a batch: refused without an open batch (R268), after the checks above. -/
def refuseBatch (s : State) : Option Refusal :=
  match refuseSession s with
  | some r => some r
  | none => if s.batchOpen then none else some .batchOrder

/-- The admitted modes of `SetMode` are 4, 5, 6, 7 (R197, R270). -/
def modeInDomain (mode : Byte) : Bool := decide (4 ≤ mode.toNat) && decide (mode.toNat ≤ 7)

/-- The refusal of a command's operand, decided last (R270, D31): only `SetMode` has one (R182). -/
def refuseOperand : Command → Option Refusal
  | .setMode mode => if modeInDomain mode then none else some .modeDomain
  | .setCommandLock _ | .setDisplayOn _ | .setClockDivAndOscFreq _ _ | .setMuxRatio _ | .setStartLine _
  | .setOffset _ | .setRemapMode _ _ _ _ _ _ | .vddFunctionSelect _ | .displayEnhancementA _ _
  | .setContrastCurrent _ | .masterContrastCurrentControl _ | .setPhaseLength _ _ | .setPrechargeVoltage _
  | .setVcomh _ | .setColumnAddress _ _ | .setRowAddress _ _ | .writeRam | .readRam
  | .enablePartialDisplay _ _ | .exitPartialDisplay | .setGpio _ _ | .setSecondPrechargePeriod _
  | .setGrayScaleTable _ | .setDefaultGrayScaleTable | .enableGrayScaleTable => none

/-- An operation that its refusal does not stop goes on. -/
def admitted (refusal : Option Refusal) (go : Answer) : Answer :=
  match refusal with
  | some r => .refused r
  | none => go

end Sys2Proof.Machine
end

