-- ==== Sys2Proof/Machine/Operands.lean ====
section
/-! DEFINITION. The operand computations: the transaction type's level, floor and ceiling division, the
aligned rectangle, the RAM window and the packing of pixels (00_scope R16, R18; 40 R120; 44 R234, R237, R238). -/

namespace Sys2Proof.Machine

/-- `dc(Command) = 0`, `dc(Data) = 1` (R18). -/
def dcLevel : TxType → Level
  | .command => .low
  | .data => .high

/-- The greatest `q` with `q*n <= a`, for `n > 0` (R16). -/
def floorDiv (a n : Int) : Int := a / n

/-- The least `q` with `q*n >= a`, for `n > 0` (R16). -/
def ceilDiv (a n : Int) : Int := -((-a) / n)

/-- The refresh alignment granularity (R10 `MIN_SPAN`). -/
def minSpan : Int := 4

/-- The formula of `best_fit_x` (R120), for a positive `span`. -/
def alignX (r : Rect) (span : Int) : Rect :=
  let fitX := floorDiv r.x span * span
  let fitX2 := ceilDiv (r.x + r.w) span * span
  { x := fitX, y := r.y, w := fitX2 - fitX, h := r.h }

/-- `w <= 0` or `h <= 0` (R122, R269). -/
def isEmptyRect (r : Rect) : Bool := decide (r.w ≤ 0) || decide (r.h ≤ 0)

/-- The rectangle lies inside the buffer (R233). -/
def rectInBuffer (cfg : Config) (a : Rect) : Bool :=
  decide (0 ≤ a.x) && decide (a.x + a.w ≤ cfg.fbWidth) && decide (0 ≤ a.y) && decide (a.y + a.h ≤ cfg.fbHeight)

/-- `col_start` (R234). -/
def colStartOf (cfg : Config) (a : Rect) : Int := cfg.colStart + a.x / 4

/-- `col_end` (R234): the last column, inclusive. -/
def colEndOf (cfg : Config) (a : Rect) : Int := cfg.colStart + (a.x + a.w) / 4 - 1

/-- `row_start` (R234). -/
def rowStartOf (cfg : Config) (a : Rect) : Int := cfg.rowStart + a.y

/-- `row_end` (R234): one past the last row, as the source writes it (C2, log 17). -/
def rowEndOf (cfg : Config) (a : Rect) : Int := cfg.rowStart + a.y + a.h

/-- `pack(pa, pb)` (R237): the left pixel in bits 7..4, the right pixel in bits 3..0. -/
def pack (pa pb : Byte) : Byte := ((pa &&& 0xF) <<< 4) ||| (pb &&& 0xF)

/-- `trunc8((pa << 4) | pb)`: the source's formula without the masks (R238). -/
def packUnmasked (pa pb : Byte) : Byte := (pa <<< 4) ||| pb

/-- The byte streamed for two pixels: `pack`, and for a right pixel above 15 either candidate, the choice
left free (R238, U5, log 10). -/
def streamByte (pa pb : Byte) : Byte :=
  if pb ≤ 15 then pack pa pb
  else if Config.packsMasked pa pb then pack pa pb else packUnmasked pa pb

end Sys2Proof.Machine
end

