-- ==== Sys2Proof/Machine/Bus.lean ====
section
/-! DEFINITION. The bus transactor: the step lists of its six operations and their meanings
(42_bus_transactor R150 to R162). -/

namespace Sys2Proof.Machine

/-- Drive a control line. -/
def pin (line : Line) (level : Level) : Micro := .prim (.pin line level)

/-- Busy-wait (R277). -/
def delay (n : Nat) : Micro := .prim (.delay n)

/-- The steps of `reset` (R151; `CS`, `WR`, `RD` in the order of naming, log 19). -/
def resetSteps (cfg : Config) : List Micro :=
  [pin .res .high, delay cfg.delays.dRes,
   pin .res .low, delay cfg.delays.dRes,
   pin .res .high, delay cfg.delays.dRes,
   .prim (.dir .output),
   pin .cs .high, pin .wr .high, pin .rd .high, pin .cs .low,
   .setReady, .setBatch false]

/-- The steps of `write(type, byte)` (R154). -/
def writeSteps (cfg : Config) (type : TxType) (byte : Byte) : List Micro :=
  [.prim (.dir .output), .prim (.drive byte), pin .dc (dcLevel type), pin .cs .low,
   delay cfg.delays.dAs, pin .wr .low, delay cfg.delays.dWl, pin .wr .high, delay cfg.delays.dWh,
   pin .cs .high]

/-- The steps of `multi_write_begin` (R157; the direction is not set, log 20). -/
def beginSteps (cfg : Config) : List Micro :=
  [pin .dc .high, pin .cs .low, delay cfg.delays.dBas, .setBatch true]

/-- The steps of `multi_write_byte(byte)` (R158). -/
def byteSteps (cfg : Config) (byte : Byte) : List Micro :=
  [.prim (.drive byte), pin .wr .low, delay cfg.delays.dBwl, pin .wr .high, delay cfg.delays.dBwh]

/-- The steps of `multi_write_end` (R159). -/
def endSteps : List Micro := [pin .cs .high, .setBatch false]

/-- The steps of `read(type)` (R160). -/
def readSteps (cfg : Config) (type : TxType) : List Micro :=
  [.prim (.dir .input), pin .dc (dcLevel type), pin .cs .low, pin .rd .low, delay cfg.delays.dRdl,
   .prim .sample, pin .rd .high, pin .cs .high]

/-- `reset` (R151), accepted in every session state and with a batch open (R152). -/
def execReset (s : State) : Answer :=
  admitted (refuseHalted s) (complete .reset (resetSteps s.cfg) .ok s)

/-- `write(type, byte)` (R154). -/
def execWrite (type : TxType) (byte : Byte) (s : State) : Answer :=
  admitted (refuseSingle s) (complete (.write type byte) (writeSteps s.cfg type byte) .ok s)

/-- `multi_write_begin` (R157). -/
def execMultiWriteBegin (s : State) : Answer :=
  admitted (refuseSingle s) (complete .multiWriteBegin (beginSteps s.cfg) .ok s)

/-- `multi_write_byte(byte)` (R158). -/
def execMultiWriteByte (byte : Byte) (s : State) : Answer :=
  admitted (refuseBatch s) (complete (.multiWriteByte byte) (byteSteps s.cfg byte) .ok s)

/-- `multi_write_end` (R159). -/
def execMultiWriteEnd (s : State) : Answer :=
  admitted (refuseBatch s) (complete .multiWriteEnd endSteps .ok s)

/-- `read(type)` (R160); the result is the byte of its one sample. -/
def execRead (type : TxType) (s : State) : Answer :=
  admitted (refuseSingle s) (complete (.read type) (readSteps s.cfg type) (.okByte s.sampleByte) s)

end Sys2Proof.Machine
end

