-- ==== Sys2Proof/WellFormed.lean ====
section
/-! DEFINITION. Which operands a host can write down (30_encoding R96). The types of `Instr` already carry
the 1-bit, 8-bit and 16-byte operands; left are the window operands, which are 8-bit from the host and
typed as integers here (43 R198, log 28), and the admitted domain of `SetMode` (R99, R197). -/

namespace Sys2Proof

/-- An unsigned 8-bit value (R96). -/
def fitsByte (v : Int) : Bool := decide (0 ≤ v) && decide (v ≤ 255)

/-- The admitted modes of `SetMode`: 4, 5, 6, 7 (R99, D16). -/
def modeAdmitted (mode : Byte) : Bool :=
  mode == 4 || mode == 5 || mode == 6 || mode == 7

/-- The operands of a command are of the types of R96 and in the domain of R99. -/
def Command.wellFormed : Command → Bool
  | .setColumnAddress s e => fitsByte s && fitsByte e
  | .setRowAddress s e => fitsByte s && fitsByte e
  | .setMode mode => modeAdmitted mode
  | .setCommandLock _ | .setDisplayOn _ | .setClockDivAndOscFreq _ _ | .setMuxRatio _ | .setStartLine _
  | .setOffset _ | .setRemapMode _ _ _ _ _ _ | .vddFunctionSelect _ | .displayEnhancementA _ _
  | .setContrastCurrent _ | .masterContrastCurrentControl _ | .setPhaseLength _ _
  | .setPrechargeVoltage _ | .setVcomh _ | .writeRam | .readRam | .enablePartialDisplay _ _
  | .exitPartialDisplay | .setGpio _ _ | .setSecondPrechargePeriod _ | .setGrayScaleTable _
  | .setDefaultGrayScaleTable | .enableGrayScaleTable => true

/-- Every operand has the values its field of the byte sequence holds apart: below 2^k for a field of k bits
(R97, R98, R100); `vsl` without the fixed bits of its byte; `g0`, `g1` without overlap (log 33); the modes of
R99. Operands of a whole byte and flags have every value. -/
def Command.inRange : Command → Bool
  | .setClockDivAndOscFreq div freq => decide (div < 16) && decide (freq < 16)
  | .setMuxRatio n => decide (n < 128)
  | .setStartLine n => decide (n < 128)
  | .setOffset n => decide (n < 128)
  | .displayEnhancementA vsl quality => vsl &&& 0xA0 == 0 && decide (quality < 32)
  | .masterContrastCurrentControl v => decide (v < 16)
  | .setPhaseLength p1 p2 => decide (p1 < 16) && decide (p2 < 16)
  | .setPrechargeVoltage v => decide (v < 32)
  | .setVcomh v => decide (v < 8)
  | .setMode mode => modeAdmitted mode
  | .setColumnAddress s e => decide (0 ≤ s) && decide (s < 128) && decide (0 ≤ e) && decide (e < 128)
  | .setRowAddress s e => decide (0 ≤ s) && decide (s < 128) && decide (0 ≤ e) && decide (e < 128)
  | .enablePartialDisplay s e => decide (s < 128) && decide (e < 128)
  | .setGpio g0 g1 => decide (g0 < 4) && decide (g1 < 64)
  | .setSecondPrechargePeriod p => decide (p < 16)
  | .setCommandLock _ | .setDisplayOn _ | .setRemapMode _ _ _ _ _ _ | .vddFunctionSelect _
  | .setContrastCurrent _ | .writeRam | .readRam | .exitPartialDisplay | .setGrayScaleTable _
  | .setDefaultGrayScaleTable | .enableGrayScaleTable => true

/-- The operands of a host operation are of the types of R96 and in the domain of R99. -/
def Instr.wellFormed : Instr → Bool
  | .setColumnAddress s e => fitsByte s && fitsByte e
  | .setRowAddress s e => fitsByte s && fitsByte e
  | .setMode mode => modeAdmitted mode
  | .command c => c.wellFormed
  | .setCommandLock _ | .setDisplayOn _ | .setClockDivAndOscFreq _ _ | .setMuxRatio _ | .setStartLine _
  | .setOffset _ | .setRemapMode _ _ _ _ _ _ | .vddFunctionSelect _ | .displayEnhancementA _ _
  | .setContrastCurrent _ | .masterContrastCurrentControl _ | .setPhaseLength _ _
  | .setPrechargeVoltage _ | .setVcomh _ | .writeRam | .readRam | .enablePartialDisplay _ _
  | .exitPartialDisplay | .setGpio _ _ | .setSecondPrechargePeriod _ | .setGrayScaleTable _
  | .setDefaultGrayScaleTable | .enableGrayScaleTable | .reset | .write _ _ | .multiWriteBegin
  | .multiWriteByte _ | .multiWriteEnd | .read _ | .rawCommand _ _ | .bestFitX _ _ | .refresh _ => true

end Sys2Proof
end

