-- ==== Sys2Proof/Decode.lean ====
section
/-! DEFINITION. The bytes of a command and the decoder of a byte sequence (30_encoding R90 to R103,
43_command_encoder R183 to R209). A word of the opcode table is a command's byte sequence, its opcode byte
first; host operations have no encoding of their own (R90, D25). The encoder stands after the decoder; both
are written from the table of R94. -/

namespace Sys2Proof

/-! ## Argument packing (R96 to R100) -/

/-- `b2n` (R15) as a byte. -/
def bitByte (b : Bool) : Byte := if b then 1 else 0

/-- `a & 0x7F` of an integer of any width: its residue modulo 128 (R97). -/
def windowField (a : Int) : Byte := BitVec.ofInt 8 (a % 128)

/-- Two 4-bit fields in one byte, the first in bits 3..0 (R185, R194). -/
def nibbles (lo hi : Byte) : Byte := (lo &&& 0xF) ||| ((hi &&& 0xF) <<< 4)

/-- First argument of `SetRemapMode` (R189). -/
def remapByte1 (inc colRemap nibbleRemap scanDir splitOddEven : Bool) : Byte :=
  bitByte inc ||| (bitByte colRemap <<< 1) ||| (bitByte nibbleRemap <<< 2) |||
    (bitByte scanDir <<< 4) ||| (bitByte splitOddEven <<< 5)

/-- Second argument of `SetRemapMode` (R189). -/
def remapByte2 (dualCom : Bool) : Byte := 0x01 ||| (bitByte dualCom <<< 4)

/-- `trunc8(g0 | (g1<<2))` (R204, R98): on 8-bit operands the 8-bit shift drops what `trunc8` drops. -/
def gpioByte (g0 g1 : Byte) : Byte := g0 ||| (g1 <<< 2)

/-- `trunc8(0xA0 | vsl)` (R191). -/
def vslByte (vsl : Byte) : Byte := 0xA0 ||| vsl

/-- `trunc8(0x05 | (quality<<3))` (R191). -/
def qualityByte (quality : Byte) : Byte := 0x05 ||| (quality <<< 3)

/-! ## Rows of the opcode map (R94) -/

/-- How many argument bytes follow the opcode byte, for every opcode byte of R94 with its printed value
except that of `SetGpio`, whose byte is a parameter; `none` for a byte no row uses. -/
def rowArgCount (opcode : Byte) : Option Nat :=
  match opcode.toNat with
  | 0x00 => some 0
  | 0x15 => some 2
  | 0x5C => some 0
  | 0x5D => some 0
  | 0x75 => some 2
  | 0xA0 => some 2
  | 0xA1 => some 1
  | 0xA2 => some 1
  | 0xA4 => some 0
  | 0xA5 => some 0
  | 0xA6 => some 0
  | 0xA7 => some 0
  | 0xA8 => some 2
  | 0xA9 => some 0
  | 0xAB => some 1
  | 0xAE => some 0
  | 0xAF => some 0
  | 0xB1 => some 1
  | 0xB3 => some 1
  | 0xB4 => some 2
  | 0xB6 => some 1
  | 0xB8 => some 16
  | 0xB9 => some 0
  | 0xBB => some 1
  | 0xBE => some 1
  | 0xC1 => some 1
  | 0xC7 => some 1
  | 0xCA => some 1
  | 0xFD => some 1
  | _ => none

/-- Some row other than `SetGpio` uses this opcode byte. -/
def rowUses (opcode : Byte) : Bool := (rowArgCount opcode).isSome

/-- A 7-bit field's byte: bit 7 is 0 (R102). -/
def isField7 (a : Byte) : Bool := a &&& 0x80 == 0

/-- The 16 bytes of a gray scale table, when there are exactly 16. -/
def grayTable? (bytes : List Byte) : Option GrayTable :=
  if h : bytes.length = 16 then some ⟨bytes.toArray, by simpa using h⟩ else none

/-- A row without argument bytes. -/
def noArg (i : Instr) : List Byte → Option Instr
  | [] => some i
  | _ :: _ => none

/-- A row with one argument byte. -/
def oneArg (row : Byte → Option Instr) : List Byte → Option Instr
  | [a] => row a
  | _ => none

/-- A row with two argument bytes. -/
def twoArgs (row : Byte → Byte → Option Instr) : List Byte → Option Instr
  | [a, b] => row a b
  | _ => none

/-- An instruction whose argument bytes must meet a condition on their fixed bits. -/
def guarded (fixed : Bool) (i : Instr) : Option Instr := if fixed then some i else none

/-- The command of a row other than `SetGpio` whose byte sequence is `opcode :: args`, if there is one: the
number of arguments is the row's, and every fixed or reserved bit has the value the row sends (R102). -/
def decodeRow (opcode : Byte) (args : List Byte) : Option Instr :=
  match opcode.toNat with
  | 0x00 => noArg .enableGrayScaleTable args
  | 0x15 => twoArgs (fun s e => guarded (isField7 s && isField7 e) (.setColumnAddress s.toNat e.toNat)) args
  | 0x5C => noArg .writeRam args
  | 0x5D => noArg .readRam args
  | 0x75 => twoArgs (fun s e => guarded (isField7 s && isField7 e) (.setRowAddress s.toNat e.toNat)) args
  | 0xA0 => twoArgs (fun a b => guarded (a &&& 0xC8 == 0 && b &&& 0xEF == 0x01)
      (.setRemapMode (a.getLsbD 0) (a.getLsbD 1) (a.getLsbD 2) (a.getLsbD 4) (a.getLsbD 5) (b.getLsbD 4))) args
  | 0xA1 => oneArg (fun n => guarded (isField7 n) (.setStartLine n)) args
  | 0xA2 => oneArg (fun n => guarded (isField7 n) (.setOffset n)) args
  | 0xA4 => noArg (.setMode 4) args
  | 0xA5 => noArg (.setMode 5) args
  | 0xA6 => noArg (.setMode 6) args
  | 0xA7 => noArg (.setMode 7) args
  | 0xA8 => twoArgs (fun s e => guarded (isField7 s && isField7 e) (.enablePartialDisplay s e)) args
  | 0xA9 => noArg .exitPartialDisplay args
  | 0xAB => oneArg (fun mode => some (.vddFunctionSelect mode)) args
  | 0xAE => noArg (.setDisplayOn false) args
  | 0xAF => noArg (.setDisplayOn true) args
  | 0xB1 => oneArg (fun a => some (.setPhaseLength (a &&& 0xF) (a >>> 4))) args
  | 0xB3 => oneArg (fun a => some (.setClockDivAndOscFreq (a &&& 0xF) (a >>> 4))) args
  | 0xB4 => twoArgs (fun a b => guarded (a &&& 0xA0 == 0xA0 && b &&& 0x07 == 0x05)
      (.displayEnhancementA (a &&& 0x5F) (b >>> 3))) args
  | 0xB6 => oneArg (fun p => guarded (p &&& 0xF0 == 0) (.setSecondPrechargePeriod p)) args
  | 0xB8 => (grayTable? args).map .setGrayScaleTable
  | 0xB9 => noArg .setDefaultGrayScaleTable args
  | 0xBB => oneArg (fun v => guarded (v &&& 0xE0 == 0) (.setPrechargeVoltage v)) args
  | 0xBE => oneArg (fun v => guarded (v &&& 0xF8 == 0) (.setVcomh v)) args
  | 0xC1 => oneArg (fun v => some (.setContrastCurrent v)) args
  | 0xC7 => oneArg (fun v => guarded (v &&& 0xF0 == 0) (.masterContrastCurrentControl v)) args
  | 0xCA => oneArg (fun n => guarded (isField7 n) (.setMuxRatio n)) args
  | 0xFD => oneArg (fun a => guarded (a &&& 0xFB == 0x12) (.setCommandLock (a.getLsbD 2))) args
  | _ => none

/-! ## The decoder -/

/-- The operation that sends exactly the opcode byte `opcode` and the argument bytes `args`: the command
whose row they match, or else `raw_command` (R101, R180, log 15). On the opcode byte of `SetGpio` the command
is decoded only if no other row uses that byte; otherwise the decoder does not choose between the two
(R95, C1, log 8). DESIGN CHOICE (log 33): R98 leaves open how the argument byte of `SetGpio` is split when its
operands overlapped or its bits [7:4] are set; the decoder gives `g0` bits [1:0] and `g1` bits [7:2], the one
pair without overlap that sends the byte. -/
def decodeFrame (cfg : Config) (opcode : Byte) (args : List Byte) : Instr :=
  if opcode = cfg.opcSetGpio then
    if rowUses opcode then .rawCommand opcode args
    else match args with
      | [a] => .setGpio (a &&& 0x03) (a >>> 2)
      | _ => .rawCommand opcode args
  else (decodeRow opcode args).getD (.rawCommand opcode args)

/-- How many argument bytes follow an opcode byte (R103: the opcode byte determines the length). DESIGN CHOICE
(log 8): where `OPC_SET_GPIO` equals the opcode byte of another row, the count is that row's; the spec gives it
only for 0xB6, where both rows have one argument. -/
def argCount (cfg : Config) (opcode : Byte) : Option Nat :=
  match rowArgCount opcode with
  | some n => some n
  | none => if opcode = cfg.opcSetGpio then some 1 else none

/-- Why a byte sequence has no first instruction. -/
inductive DecodeError where
  /-- There is no byte. -/
  | empty
  /-- No row of R94 uses this opcode byte, so the length is not known (R101). -/
  | unknownOpcode (opcode : Byte)
  /-- Fewer argument bytes follow than the row of this opcode byte has. -/
  | truncated (opcode : Byte)
deriving DecidableEq, Repr

/-- The first instruction of a byte sequence and the bytes after it; total, rejecting by name. -/
def decode (cfg : Config) : List Byte → Except DecodeError (Instr × List Byte)
  | [] => .error .empty
  | opcode :: rest =>
    match argCount cfg opcode with
    | none => .error (.unknownOpcode opcode)
    | some n =>
      if rest.length < n then .error (.truncated opcode)
      else .ok (decodeFrame cfg opcode (rest.take n), rest.drop n)

/-- The bytes of a word of the opcode table: bit 0 is the least significant bit of the first byte, a later
byte's bits count on from it; the bits from `nbits` on are 0, up to the longest instruction (17 bytes). -/
def tableBytes (nbits w : Nat) : List Byte :=
  (List.range 17).map fun k => BitVec.ofNat 8 ((w % 2 ^ nbits) >>> (8 * k))

/-- The instruction the decoder reads from a word of the opcode table, with the documented parameters. -/
def decodeTableWord (nbits w : Nat) : Option Instr :=
  match decode Config.documented (tableBytes nbits w) with
  | .ok (i, _) => some i
  | .error _ => none

/-! ## The encoder (R94, R183 to R208) -/

/-- `opcode(c)` (R181). The parameter `OPC_SET_GPIO` is the opcode of `SetGpio` (R204). -/
def Command.opcode (cfg : Config) : Command → Byte
  | .setCommandLock _ => 0xFD
  | .setDisplayOn enable => 0xAE ||| bitByte enable
  | .setClockDivAndOscFreq _ _ => 0xB3
  | .setMuxRatio _ => 0xCA
  | .setStartLine _ => 0xA1
  | .setOffset _ => 0xA2
  | .setRemapMode _ _ _ _ _ _ => 0xA0
  | .vddFunctionSelect _ => 0xAB
  | .displayEnhancementA _ _ => 0xB4
  | .setContrastCurrent _ => 0xC1
  | .masterContrastCurrentControl _ => 0xC7
  | .setPhaseLength _ _ => 0xB1
  | .setPrechargeVoltage _ => 0xBB
  | .setVcomh _ => 0xBE
  | .setMode mode => 0xA0 ||| mode
  | .setColumnAddress _ _ => 0x15
  | .setRowAddress _ _ => 0x75
  | .writeRam => 0x5C
  | .readRam => 0x5D
  | .enablePartialDisplay _ _ => 0xA8
  | .exitPartialDisplay => 0xA9
  | .setGpio _ _ => cfg.opcSetGpio
  | .setSecondPrechargePeriod _ => 0xB6
  | .setGrayScaleTable _ => 0xB8
  | .setDefaultGrayScaleTable => 0xB9
  | .enableGrayScaleTable => 0x00

/-- `args(c)` (R181): the argument bytes, masked as R97 says or unmasked as R98 says. -/
def Command.args : Command → List Byte
  | .setCommandLock lock => [0x12 ||| (bitByte lock <<< 2)]
  | .setDisplayOn _ => []
  | .setClockDivAndOscFreq div freq => [nibbles div freq]
  | .setMuxRatio n => [n &&& 0x7F]
  | .setStartLine n => [n &&& 0x7F]
  | .setOffset n => [n &&& 0x7F]
  | .setRemapMode inc colRemap nibbleRemap scanDir splitOddEven dualCom =>
    [remapByte1 inc colRemap nibbleRemap scanDir splitOddEven, remapByte2 dualCom]
  | .vddFunctionSelect mode => [mode]
  | .displayEnhancementA vsl quality => [vslByte vsl, qualityByte quality]
  | .setContrastCurrent v => [v]
  | .masterContrastCurrentControl v => [v &&& 0xF]
  | .setPhaseLength p1 p2 => [nibbles p1 p2]
  | .setPrechargeVoltage v => [v &&& 0x1F]
  | .setVcomh v => [v &&& 0x07]
  | .setMode _ => []
  | .setColumnAddress s e => [windowField s, windowField e]
  | .setRowAddress s e => [windowField s, windowField e]
  | .writeRam => []
  | .readRam => []
  | .enablePartialDisplay s e => [s &&& 0x7F, e &&& 0x7F]
  | .exitPartialDisplay => []
  | .setGpio g0 g1 => [gpioByte g0 g1]
  | .setSecondPrechargePeriod p => [p &&& 0xF]
  | .setGrayScaleTable t => t.toList
  | .setDefaultGrayScaleTable => []
  | .enableGrayScaleTable => []

/-- The bytes of a command: `[opcode(c)] ++ args(c)` (R182). -/
def Command.bytes (cfg : Config) (c : Command) : List Byte := c.opcode cfg :: c.args

/-- The command a constructor of `Instr` stands for: the 26 controller commands and `command(c)`. -/
def Instr.toCommand : Instr → Option Command
  | .setCommandLock lock => some (.setCommandLock lock)
  | .setDisplayOn enable => some (.setDisplayOn enable)
  | .setClockDivAndOscFreq div freq => some (.setClockDivAndOscFreq div freq)
  | .setMuxRatio n => some (.setMuxRatio n)
  | .setStartLine n => some (.setStartLine n)
  | .setOffset n => some (.setOffset n)
  | .setRemapMode inc colRemap nibbleRemap scanDir splitOddEven dualCom =>
    some (.setRemapMode inc colRemap nibbleRemap scanDir splitOddEven dualCom)
  | .vddFunctionSelect mode => some (.vddFunctionSelect mode)
  | .displayEnhancementA vsl quality => some (.displayEnhancementA vsl quality)
  | .setContrastCurrent v => some (.setContrastCurrent v)
  | .masterContrastCurrentControl v => some (.masterContrastCurrentControl v)
  | .setPhaseLength p1 p2 => some (.setPhaseLength p1 p2)
  | .setPrechargeVoltage v => some (.setPrechargeVoltage v)
  | .setVcomh v => some (.setVcomh v)
  | .setMode mode => some (.setMode mode)
  | .setColumnAddress s e => some (.setColumnAddress s e)
  | .setRowAddress s e => some (.setRowAddress s e)
  | .writeRam => some .writeRam
  | .readRam => some .readRam
  | .enablePartialDisplay s e => some (.enablePartialDisplay s e)
  | .exitPartialDisplay => some .exitPartialDisplay
  | .setGpio g0 g1 => some (.setGpio g0 g1)
  | .setSecondPrechargePeriod p => some (.setSecondPrechargePeriod p)
  | .setGrayScaleTable t => some (.setGrayScaleTable t)
  | .setDefaultGrayScaleTable => some .setDefaultGrayScaleTable
  | .enableGrayScaleTable => some .enableGrayScaleTable
  | .command c => some c
  | .reset => none
  | .write _ _ => none
  | .multiWriteBegin => none
  | .multiWriteByte _ => none
  | .multiWriteEnd => none
  | .read _ => none
  | .rawCommand _ _ => none
  | .bestFitX _ _ => none
  | .refresh _ => none

/-- The byte sequence of an instruction: of a command its bytes, of `raw_command` its opcode and arguments
(R180); the other host operations are abstract and have none (R90). -/
def encode (cfg : Config) (i : Instr) : Option (List Byte) :=
  match i with
  | .rawCommand opcode args => some (opcode :: args)
  | _ => (i.toCommand).map (Command.bytes cfg)

/-- The instruction with each operand reduced to what its byte sequence carries: masked-off, shifted-out and
absorbed bits are lost (R209 c, "intentional lossy normalization"). For `SetGpio` it is the split of log 33. -/
def Command.carried : Command → Instr
  | .setCommandLock lock => .setCommandLock lock
  | .setDisplayOn enable => .setDisplayOn enable
  | .setClockDivAndOscFreq div freq => .setClockDivAndOscFreq (div &&& 0xF) (freq &&& 0xF)
  | .setMuxRatio n => .setMuxRatio (n &&& 0x7F)
  | .setStartLine n => .setStartLine (n &&& 0x7F)
  | .setOffset n => .setOffset (n &&& 0x7F)
  | .setRemapMode inc colRemap nibbleRemap scanDir splitOddEven dualCom =>
    .setRemapMode inc colRemap nibbleRemap scanDir splitOddEven dualCom
  | .vddFunctionSelect mode => .vddFunctionSelect mode
  | .displayEnhancementA vsl quality => .displayEnhancementA (vsl &&& 0x5F) (quality &&& 0x1F)
  | .setContrastCurrent v => .setContrastCurrent v
  | .masterContrastCurrentControl v => .masterContrastCurrentControl (v &&& 0xF)
  | .setPhaseLength p1 p2 => .setPhaseLength (p1 &&& 0xF) (p2 &&& 0xF)
  | .setPrechargeVoltage v => .setPrechargeVoltage (v &&& 0x1F)
  | .setVcomh v => .setVcomh (v &&& 0x07)
  | .setMode mode => .setMode mode
  | .setColumnAddress s e => .setColumnAddress (s % 128) (e % 128)
  | .setRowAddress s e => .setRowAddress (s % 128) (e % 128)
  | .writeRam => .writeRam
  | .readRam => .readRam
  | .enablePartialDisplay s e => .enablePartialDisplay (s &&& 0x7F) (e &&& 0x7F)
  | .exitPartialDisplay => .exitPartialDisplay
  | .setGpio g0 g1 => .setGpio (gpioByte g0 g1 &&& 0x03) (gpioByte g0 g1 >>> 2)
  | .setSecondPrechargePeriod p => .setSecondPrechargePeriod (p &&& 0xF)
  | .setGrayScaleTable t => .setGrayScaleTable t
  | .setDefaultGrayScaleTable => .setDefaultGrayScaleTable
  | .enableGrayScaleTable => .enableGrayScaleTable

/-- No other row uses the opcode byte of `SetGpio` (R209 d). -/
def Config.gpioOpcodeFree (cfg : Config) : Bool := !rowUses cfg.opcSetGpio

/-- The first byte of the command determines it under these parameters: always, when the opcode byte of
`SetGpio` is its own, and otherwise for every command but those on that byte (R95, R209 d). -/
def Command.unambiguous (cfg : Config) (c : Command) : Bool :=
  cfg.gpioOpcodeFree || c.opcode cfg != cfg.opcSetGpio

/-- What the decoder makes of a command's byte sequence. -/
def Command.decoded (cfg : Config) (c : Command) : Instr :=
  if c.unambiguous cfg then c.carried else .rawCommand (c.opcode cfg) c.args

end Sys2Proof
end

