-- ==== Sys2Proof/Machine/Commands.lean ====
section
/-! DEFINITION. The command encoder: `raw_command`, `command(c)` and the 26 commands
(43_command_encoder R180 to R210). -/

namespace Sys2Proof.Machine

/-- The steps of `raw_command` (R180, R93): a single write of the opcode as Command, then one of each
argument as Data. -/
def rawSteps (cfg : Config) (opcode : Byte) (args : List Byte) : List Micro :=
  writeSteps cfg .command opcode ++ args.flatMap (writeSteps cfg .data)

/-- The steps of `command(c)`: those of `raw_command(opcode(c), args(c))` (R181). -/
def commandSteps (cfg : Config) (c : Command) : List Micro := rawSteps cfg (c.opcode cfg) c.args

/-- Issue a command by the host operation `op`: refused outside a ready session without a batch, or for its
operand (R182), else its bytes go out. -/
def issueCommand (op : Instr) (c : Command) (s : State) : Answer :=
  admitted (refuseSingle s) (admitted (refuseOperand c) (complete op (commandSteps s.cfg c) .ok s))

/-- `raw_command(opcode, args)` (R180): any opcode and any number of arguments. -/
def execRawCommand (opcode : Byte) (args : List Byte) (s : State) : Answer :=
  admitted (refuseSingle s) (complete (.rawCommand opcode args) (rawSteps s.cfg opcode args) .ok s)

/-- `command(c)` (R181). -/
def execCommand (c : Command) (s : State) : Answer := issueCommand (.command c) c s

/-- `SetCommandLock(lock)` (R183). -/
def execSetCommandLock (lock : Bool) (s : State) : Answer :=
  issueCommand (.setCommandLock lock) (.setCommandLock lock) s

/-- `SetDisplayOn(enable)` (R184). -/
def execSetDisplayOn (enable : Bool) (s : State) : Answer :=
  issueCommand (.setDisplayOn enable) (.setDisplayOn enable) s

/-- `SetClockDivAndOscFreq` (R185). -/
def execSetClockDivAndOscFreq (div freq : Byte) (s : State) : Answer :=
  issueCommand (.setClockDivAndOscFreq div freq) (.setClockDivAndOscFreq div freq) s

/-- `SetMuxRatio(n)` (R186). -/
def execSetMuxRatio (n : Byte) (s : State) : Answer := issueCommand (.setMuxRatio n) (.setMuxRatio n) s

/-- `SetStartLine(n)` (R187). -/
def execSetStartLine (n : Byte) (s : State) : Answer := issueCommand (.setStartLine n) (.setStartLine n) s

/-- `SetOffset(n)` (R188). -/
def execSetOffset (n : Byte) (s : State) : Answer := issueCommand (.setOffset n) (.setOffset n) s

/-- `SetRemapMode` (R189). -/
def execSetRemapMode (inc colRemap nibbleRemap scanDir splitOddEven dualCom : Bool) (s : State) : Answer :=
  issueCommand (.setRemapMode inc colRemap nibbleRemap scanDir splitOddEven dualCom)
    (.setRemapMode inc colRemap nibbleRemap scanDir splitOddEven dualCom) s

/-- `VddFunctionSelect(mode)` (R190). -/
def execVddFunctionSelect (mode : Byte) (s : State) : Answer :=
  issueCommand (.vddFunctionSelect mode) (.vddFunctionSelect mode) s

/-- `DisplayEnhancementA(vsl, quality)` (R191). -/
def execDisplayEnhancementA (vsl quality : Byte) (s : State) : Answer :=
  issueCommand (.displayEnhancementA vsl quality) (.displayEnhancementA vsl quality) s

/-- `SetContrastCurrent(v)` (R192). -/
def execSetContrastCurrent (v : Byte) (s : State) : Answer :=
  issueCommand (.setContrastCurrent v) (.setContrastCurrent v) s

/-- `MasterContrastCurrentControl(v)` (R193). -/
def execMasterContrastCurrentControl (v : Byte) (s : State) : Answer :=
  issueCommand (.masterContrastCurrentControl v) (.masterContrastCurrentControl v) s

/-- `SetPhaseLength{p1, p2}` (R194). -/
def execSetPhaseLength (p1 p2 : Byte) (s : State) : Answer :=
  issueCommand (.setPhaseLength p1 p2) (.setPhaseLength p1 p2) s

/-- `SetPrechargeVoltage(v)` (R195). -/
def execSetPrechargeVoltage (v : Byte) (s : State) : Answer :=
  issueCommand (.setPrechargeVoltage v) (.setPrechargeVoltage v) s

/-- `SetVcomh(v)` (R196). -/
def execSetVcomh (v : Byte) (s : State) : Answer := issueCommand (.setVcomh v) (.setVcomh v) s

/-- `SetMode(mode)` (R197). -/
def execSetMode (mode : Byte) (s : State) : Answer := issueCommand (.setMode mode) (.setMode mode) s

/-- `SetColumnAddress{s, e}` (R198). -/
def execSetColumnAddress (first last : Int) (s : State) : Answer :=
  issueCommand (.setColumnAddress first last) (.setColumnAddress first last) s

/-- `SetRowAddress{s, e}` (R199). -/
def execSetRowAddress (first last : Int) (s : State) : Answer :=
  issueCommand (.setRowAddress first last) (.setRowAddress first last) s

/-- `WriteRam` (R200). -/
def execWriteRam (s : State) : Answer := issueCommand .writeRam .writeRam s

/-- `ReadRam` (R201): the command byte only. -/
def execReadRam (s : State) : Answer := issueCommand .readRam .readRam s

/-- `EnablePartialDisplay{s, e}` (R202). -/
def execEnablePartialDisplay (first last : Byte) (s : State) : Answer :=
  issueCommand (.enablePartialDisplay first last) (.enablePartialDisplay first last) s

/-- `ExitPartialDisplay` (R203). -/
def execExitPartialDisplay (s : State) : Answer := issueCommand .exitPartialDisplay .exitPartialDisplay s

/-- `SetGpio{g0, g1}` (R204). -/
def execSetGpio (g0 g1 : Byte) (s : State) : Answer := issueCommand (.setGpio g0 g1) (.setGpio g0 g1) s

/-- `SetSecondPrechargePeriod(p)` (R205). -/
def execSetSecondPrechargePeriod (p : Byte) (s : State) : Answer :=
  issueCommand (.setSecondPrechargePeriod p) (.setSecondPrechargePeriod p) s

/-- `SetGrayScaleTable(t)` (R206). -/
def execSetGrayScaleTable (t : GrayTable) (s : State) : Answer :=
  issueCommand (.setGrayScaleTable t) (.setGrayScaleTable t) s

/-- `SetDefaultGrayScaleTable` (R207). -/
def execSetDefaultGrayScaleTable (s : State) : Answer :=
  issueCommand .setDefaultGrayScaleTable .setDefaultGrayScaleTable s

/-- `EnableGrayScaleTable` (R208). -/
def execEnableGrayScaleTable (s : State) : Answer := issueCommand .enableGrayScaleTable .enableGrayScaleTable s

end Sys2Proof.Machine
end

