-- ==== Sys2Proof/Machine/Geometry.lean ====
section
/-! DEFINITION. The rectangle alignment operation `best_fit_x` (40_geometry R120 to R123). -/

namespace Sys2Proof.Machine

/-- `best_fit_x(r, min_span)` (R120): a non-positive `min_span` is `Fatal(Contract)`, checked first as the
pseudocode does (log 13); then an empty rectangle is refused; no pin, no memory, any session. -/
def execBestFitX (r : Rect) (span : Int) (s : State) : Answer :=
  admitted (refuseHalted s)
    (if span ≤ 0 then halt (.bestFitX r span) .contract s
     else if isEmptyRect r then .refused .emptyRect
     else complete (.bestFitX r span) [] (.okRect (alignX r span)) s)

end Sys2Proof.Machine
end

