-- ==== Sys2Proof/Machine/Refresh.lean ====
section
/-! DEFINITION. The refresh engine (44_display_refresh R230 to R243). -/

namespace Sys2Proof.Machine

/-- The pixel byte at coordinates that the bounds check has passed. -/
def pixel (cfg : Config) (fb : Memory) (x y : Int) : Byte := memRead fb (pixelIndex cfg x y)

/-- The two bytes of the 4-pixel group at `x0` of row `y` (R231, R237). -/
def groupBytes (cfg : Config) (fb : Memory) (x0 y : Int) : List Byte :=
  [streamByte (pixel cfg fb x0 y) (pixel cfg fb (x0 + 1) y),
   streamByte (pixel cfg fb (x0 + 2) y) (pixel cfg fb (x0 + 3) y)]

/-- The bytes of one row of the aligned rectangle, groups from left to right (R236). -/
def rowBytes (cfg : Config) (fb : Memory) (a : Rect) (y : Int) : List Byte :=
  (List.range (a.w / 4).toNat).flatMap fun (g : Nat) => groupBytes cfg fb (a.x + 4 * g) y

/-- The streamed bytes of the aligned rectangle, rows from top to bottom (R236). -/
def streamBytes (cfg : Config) (fb : Memory) (a : Rect) : List Byte :=
  (List.range a.h.toNat).flatMap fun (r : Nat) => rowBytes cfg fb a (a.y + r)

/-- The steps of `refresh` for the aligned rectangle `a` (R231, R235, R236): three commands, then one batch.
The pixels are those of the buffer at the time of issue, which no move of the host changes before the
operation returns (R83, log 24). -/
def refreshSteps (cfg : Config) (fb : Memory) (a : Rect) : List Micro :=
  commandSteps cfg (.setColumnAddress (colStartOf cfg a) (colEndOf cfg a)) ++
  commandSteps cfg (.setRowAddress (rowStartOf cfg a) (rowEndOf cfg a)) ++
  commandSteps cfg .writeRam ++
  beginSteps cfg ++
  (streamBytes cfg fb a).flatMap (byteSteps cfg) ++
  endSteps

/-- `refresh(fb, dirty)` (R231): refusals first (R272), then `Fatal(Bounds)` at entry when the aligned
rectangle leaves the buffer (R233, R241, log 11), else the steps. -/
def execRefresh (dirty : Rect) (s : State) : Answer :=
  admitted (refuseSingle s)
    (if isEmptyRect dirty then .refused .emptyRect
     else if rectInBuffer s.cfg (alignX dirty minSpan) then
       complete (.refresh dirty) (refreshSteps s.cfg s.fb (alignX dirty minSpan)) .ok s
     else halt (.refresh dirty) .bounds s)

end Sys2Proof.Machine
end

