-- ==== Sys2Proof/Machine/Dispatch.lean ====
section
/-! DEFINITION. One arm per row of spec/opcode_table.json, each one call of its meaning. -/

namespace Sys2Proof.Machine

def exec (i : Instr) (s : State) : Host.Outcome State Fault Refusal :=
  match i with
  | .setCommandLock lock => Sys2Proof.Machine.execSetCommandLock lock s
  | .setDisplayOn enable => Sys2Proof.Machine.execSetDisplayOn enable s
  | .setClockDivAndOscFreq div freq => Sys2Proof.Machine.execSetClockDivAndOscFreq div freq s
  | .setMuxRatio n => Sys2Proof.Machine.execSetMuxRatio n s
  | .setStartLine n => Sys2Proof.Machine.execSetStartLine n s
  | .setOffset n => Sys2Proof.Machine.execSetOffset n s
  | .setRemapMode inc colRemap nibbleRemap scanDir splitOddEven dualCom => Sys2Proof.Machine.execSetRemapMode inc colRemap nibbleRemap scanDir splitOddEven dualCom s
  | .vddFunctionSelect mode => Sys2Proof.Machine.execVddFunctionSelect mode s
  | .displayEnhancementA vsl quality => Sys2Proof.Machine.execDisplayEnhancementA vsl quality s
  | .setContrastCurrent v => Sys2Proof.Machine.execSetContrastCurrent v s
  | .masterContrastCurrentControl v => Sys2Proof.Machine.execMasterContrastCurrentControl v s
  | .setPhaseLength p1 p2 => Sys2Proof.Machine.execSetPhaseLength p1 p2 s
  | .setPrechargeVoltage v => Sys2Proof.Machine.execSetPrechargeVoltage v s
  | .setVcomh v => Sys2Proof.Machine.execSetVcomh v s
  | .setMode mode => Sys2Proof.Machine.execSetMode mode s
  | .setColumnAddress first last => Sys2Proof.Machine.execSetColumnAddress first last s
  | .setRowAddress first last => Sys2Proof.Machine.execSetRowAddress first last s
  | .writeRam => Sys2Proof.Machine.execWriteRam s
  | .readRam => Sys2Proof.Machine.execReadRam s
  | .enablePartialDisplay first last => Sys2Proof.Machine.execEnablePartialDisplay first last s
  | .exitPartialDisplay => Sys2Proof.Machine.execExitPartialDisplay s
  | .setGpio g0 g1 => Sys2Proof.Machine.execSetGpio g0 g1 s
  | .setSecondPrechargePeriod p => Sys2Proof.Machine.execSetSecondPrechargePeriod p s
  | .setGrayScaleTable t => Sys2Proof.Machine.execSetGrayScaleTable t s
  | .setDefaultGrayScaleTable => Sys2Proof.Machine.execSetDefaultGrayScaleTable s
  | .enableGrayScaleTable => Sys2Proof.Machine.execEnableGrayScaleTable s
  | .reset => Sys2Proof.Machine.execReset s
  | .write type byte => Sys2Proof.Machine.execWrite type byte s
  | .multiWriteBegin => Sys2Proof.Machine.execMultiWriteBegin s
  | .multiWriteByte byte => Sys2Proof.Machine.execMultiWriteByte byte s
  | .multiWriteEnd => Sys2Proof.Machine.execMultiWriteEnd s
  | .read type => Sys2Proof.Machine.execRead type s
  | .rawCommand opcode args => Sys2Proof.Machine.execRawCommand opcode args s
  | .command c => Sys2Proof.Machine.execCommand c s
  | .bestFitX r span => Sys2Proof.Machine.execBestFitX r span s
  | .refresh dirty => Sys2Proof.Machine.execRefresh dirty s

end Sys2Proof.Machine
end

