-- ==== Sys2Proof/Machine/PixelBuffer.lean ====
section
/-! DEFINITION. The host software that writes the pixel buffer (41 R130 to R138): outside the block (R7), the
only writer of the memory `refresh` reads. A call returns the new buffer or the fault that halts the host
(R142). -/

namespace Sys2Proof.Machine

/-- `FbWrite(x, y, v)` of the host: the bounds check, then the byte (41, R69). -/
def fbWrite (cfg : Config) (fb : Memory) (x y : Int) (v : Byte) : Except Fault Memory :=
  if inBuffer cfg x y then .ok (memWrite fb (pixelIndex cfg x y) v) else .error (.hostBounds x y)

/-- `new(storage, width, height, stride)` (R130): binds an array of `stride * height` bytes to the
dimensions; another length or a stride below the width is no buffer. -/
def newBuffer (cfg : Config) (storage : List Byte) (width height stride : Nat) : Option (Config × Memory) :=
  if storage.length = stride * height ∧ width ≤ stride then
    some ({ cfg with fbWidth := width, fbHeight := height, fbStride := stride }, memOfBytes 0 storage)
  else none

/-- `all()` (R130). -/
def allRect (cfg : Config) : Rect := { x := 0, y := 0, w := cfg.fbWidth, h := cfg.fbHeight }

/-- `at(x, y)` (R131): out of range is the host's fatal fault. -/
def pixelAt (cfg : Config) (fb : Memory) (x y : Int) : Except Fault Byte :=
  match fbRead cfg fb x y with
  | some v => .ok v
  | none => .error (.hostBounds x y)

/-- Write pixels in order, each with its colour. -/
def plot (cfg : Config) : List (Int × Int × Byte) → Memory → Except Fault Memory
  | [], fb => .ok fb
  | (x, y, v) :: rest, fb =>
    match fbWrite cfg fb x y v with
    | .ok fb' => plot cfg rest fb'
    | .error f => .error f

/-- The coordinates `a ..= b`, both ends; with reversed ends the source does not say which are written
(R132, N14, log 23). -/
def span (a b : Int) : List Int :=
  if a ≤ b then (List.range (b - a + 1).toNat).map fun (k : Nat) => a + k else Config.reversedSpan a b

/-- The pixels of `hline(x1, x2, y, color)` (R132). -/
def hlinePixels (x1 x2 y : Int) (color : Byte) : List (Int × Int × Byte) :=
  (span x1 x2).map fun x => (x, y, color)

/-- The pixels of `vline(x, y1, y2, color)` (R133). -/
def vlinePixels (x y1 y2 : Int) (color : Byte) : List (Int × Int × Byte) :=
  (span y1 y2).map fun y => (x, y, color)

/-- The pixels of `rect(r, color)`: a 1-pixel border (R134). -/
def rectPixels (r : Rect) (color : Byte) : List (Int × Int × Byte) :=
  hlinePixels r.x (r.x + r.w - 1) r.y color ++
  hlinePixels r.x (r.x + r.w - 1) (r.y + r.h - 1) color ++
  vlinePixels r.x r.y (r.y + r.h - 1) color ++
  vlinePixels (r.x + r.w - 1) r.y (r.y + r.h - 1) color

/-- `clear(color)` (R135): the whole buffer; whether the padding bytes of a row are written too is open
(N14, log 23). -/
def clearBuffer (cfg : Config) (fb : Memory) (color : Byte) : Memory :=
  (List.range (cfg.fbStride * cfg.fbHeight)).foldl
    (fun m k => if k % cfg.fbStride < cfg.fbWidth then memWrite m k color
      else if cfg.clearPadding then memWrite m k color else m) fb

/-- Bit `sx mod 8` of byte `sy*stride + floor_div(sx, 8)` of a sprite (R137); a byte outside the data is the
host's fault (R142). -/
def spriteBit (sprite : MonochromeSprite) (sx sy : Nat) : Except Fault Bool :=
  match sprite.data[sy * sprite.stride + sx / 8]? with
  | some b => .ok (b.getLsbD (sx % 8))
  | none => .error (.hostSprite (sy * sprite.stride + sx / 8))

/-- One pixel of `blit_monochrome`: `color` where the bit is 1, else 0 (R136: the background is cleared). -/
def blitPixel (cfg : Config) (sprite : MonochromeSprite) (x y : Int) (color : Byte) (sx sy : Nat)
    (fb : Memory) : Except Fault Memory :=
  match spriteBit sprite sx sy with
  | .ok bit => fbWrite cfg fb (x + sx) (y + sy) (if bit then color else 0)
  | .error f => .error f

/-- The pixel positions of a sprite, row by row (R136). -/
def spritePositions (sprite : MonochromeSprite) : List (Nat × Nat) :=
  (List.range sprite.height).flatMap fun sy => (List.range sprite.width).map fun sx => (sx, sy)

/-- `blit_monochrome(sprite, x, y, color)` (R136). -/
def blitMonochrome (cfg : Config) (sprite : MonochromeSprite) (x y : Int) (color : Byte) (fb : Memory) :
    Except Fault Memory :=
  go (spritePositions sprite) fb
where
  /-- The positions in order. -/
  go : List (Nat × Nat) → Memory → Except Fault Memory
    | [], fb => .ok fb
    | (sx, sy) :: rest, fb =>
      match blitPixel cfg sprite x y color sx sy fb with
      | .ok fb' => go rest fb'
      | .error f => .error f

end Sys2Proof.Machine
end

