-- ==== Sys2Proof/Machine/Font.lean ====
section
/-! DEFINITION. The host software's font and its drawing calls as moves (41 R139 to R141). -/

namespace Sys2Proof.Machine

/-- A glyph record (R139) with its sprite view (R140). -/
structure Glyph where
  stride : Nat
  height : Nat
  baselineOffset : Nat
  advance : Nat
  sprite : MonochromeSprite
deriving DecidableEq, Repr

/-- A byte of the font blob; outside it is the host's fault (R142). -/
def fontByte (cfg : Config) (k : Nat) : Except Fault Byte :=
  match cfg.font[k]? with
  | some b => .ok b
  | none => .error (.hostFont k)

/-- `n` bytes of the font blob from `k` on. -/
def fontBytes (cfg : Config) : Nat → Nat → Except Fault (List Byte)
  | _, 0 => .ok []
  | k, n + 1 =>
    match fontByte cfg k, fontBytes cfg (k + 1) n with
    | .ok b, .ok rest => .ok (b :: rest)
    | .error f, _ => .error f
    | _, .error f => .error f

/-- The number a list of bytes writes, least significant byte first (R65, R139). -/
def littleEndian : List Byte → Nat
  | [] => 0
  | b :: rest => b.toNat + 256 * littleEndian rest

/-- `glyph_info(code)` (R140): the 4-byte offset at `4*(code - 0x20)`, the record at that offset from the
open base (N15, log 23), the sprite view of logical width `stride*8`. -/
def glyphInfo (cfg : Config) (code : Byte) : Except Fault Glyph :=
  if code.toNat < 0x20 ∨ 0x7F < code.toNat then .error (.hostGlyph code)
  else
    match fontBytes cfg (4 * (code.toNat - 0x20)) 4 with
    | .error f => .error f
    | .ok offset =>
      let at0 := cfg.fontBase + littleEndian offset
      match fontBytes cfg at0 4 with
      | .ok [stride, height, baseline, advance] =>
        match fontBytes cfg (at0 + 4) (stride.toNat * height.toNat) with
        | .error f => .error f
        | .ok data =>
          .ok { stride := stride.toNat, height := height.toNat, baselineOffset := baseline.toNat,
                advance := advance.toNat,
                sprite := { width := stride.toNat * 8, height := height.toNat, stride := stride.toNat, data } }
      | .ok _ => .error (.hostFont at0)
      | .error f => .error f

/-- `draw(buffer, string, x, baseline_y, color)` (R141): one glyph per byte, the cursor moves by `advance`;
the buffer and the final cursor. -/
def drawText (cfg : Config) (baselineY : Int) (color : Byte) :
    List Byte → Int → Memory → Except Fault (Memory × Int)
  | [], cursor, fb => .ok (fb, cursor)
  | code :: rest, cursor, fb =>
    match glyphInfo cfg code with
    | .error f => .error f
    | .ok g =>
      match blitMonochrome cfg g.sprite cursor (baselineY - g.baselineOffset) color fb with
      | .error f => .error f
      | .ok fb' => drawText cfg baselineY color rest (cursor + g.advance) fb'

/-- The pixel byte of a colour (R61, R138: stored as given). -/
def colorByte (color : Color) : Byte := color.setWidth 8

/-- What a drawing call makes of the buffer (R131 to R136, R141). -/
def drawOn (cfg : Config) (d : Draw) (fb : Memory) : Except Fault Memory :=
  match d with
  | .setPixel x y color => fbWrite cfg fb x y (colorByte color)
  | .hline x1 x2 y color => plot cfg (hlinePixels x1 x2 y (colorByte color)) fb
  | .vline x y1 y2 color => plot cfg (vlinePixels x y1 y2 (colorByte color)) fb
  | .rect r color => plot cfg (rectPixels r (colorByte color)) fb
  | .clear color => .ok (clearBuffer cfg fb (colorByte color))
  | .blitMonochrome sprite x y color => blitMonochrome cfg sprite x y (colorByte color) fb
  | .text string x baselineY color => (drawText cfg baselineY (colorByte color) string x fb).map Prod.fst

/-- A drawing move of the host: only while the sequencer is idle (R282), and it changes the buffer alone. -/
def drawStep (d : Draw) (s : State) : Answer :=
  match s.seq with
  | .busy _ _ => .fault .hostBlocked
  | .idle =>
    match drawOn s.cfg d s.fb with
    | .ok fb => .next { s with fb := fb }
    | .error f => .fault f

end Sys2Proof.Machine
end

