-- ==== Sys2Proof/Machine/Trace.lean ====
section
/-! DEFINITION. What is read off the pin event trace: the latches it leaves, the transfer trace
(10_state R47), the commands of a transfer trace (30_encoding R103), and the sum of its delays (70 R307). -/

namespace Sys2Proof.Machine

/-- What the derivation of the transfer trace keeps: the latches, and the last `WR` event (R47). -/
structure Replay where
  pins : Latches
  lastWr : Option Level
deriving DecidableEq, Repr

/-- Before the first event: every latch ⊥ (R26), no `WR` event. -/
def Replay.initial : Replay where
  pins := Latches.unknown
  lastWr := none

/-- The level of a `WR` event, if it is one. -/
def wrLevel : Event → Option Level
  | .pin .wr v => some v
  | .pin .res _ | .pin .cs _ | .pin .rd _ | .pin .dc _ => none
  | .dir _ | .drive _ | .sample _ | .delay _ | .fail _ => none

/-- After one more event. -/
def Replay.after (r : Replay) (e : Event) : Replay where
  pins := r.pins.after e
  lastWr := match wrLevel e with
    | some v => some v
    | none => r.lastWr

/-- The byte the block drives: `DOUT` when the direction is output, else ⊥ (R23, R47). -/
def drivenByte (l : Latches) : Latch Byte := if l.dir = some .output then l.dout else none

/-- The transfer an event records, if any (R47): a write at `Pin(WR,1)` after `Pin(WR,0)` with `CS` low, a
read at `Sample(v)` with `RD` and `CS` low. -/
def transferAt (r : Replay) (e : Event) : Option Transfer :=
  match e with
  | .pin .wr .high =>
    if r.lastWr = some .low ∧ r.pins.cs = some .low then some ⟨.w, r.pins.dc, drivenByte r.pins⟩ else none
  | .sample v =>
    if r.pins.rd = some .low ∧ r.pins.cs = some .low then some ⟨.r, r.pins.dc, some v⟩ else none
  | _ => none

/-- The transfers of a list of events that follow the events `r` has seen. -/
def transfersFrom : Replay → List Event → List Transfer
  | _, [] => []
  | r, e :: rest => (transferAt r e).toList ++ transfersFrom (r.after e) rest

/-- The transfer trace of a pin event trace (R47). -/
def transfersOf (events : List Event) : List Transfer := transfersFrom Replay.initial events

/-- The latches a pin event trace leaves. -/
def latchesOf (events : List Event) : Latches := events.foldl Latches.after Latches.unknown

/-- The transfer trace of the state. -/
def State.transfers (s : State) : List Transfer := transfersOf s.trace

/-- The bus cycles a list of events waits at least (R277, R307). -/
def delayCycles : List Event → Nat
  | [] => 0
  | .delay n :: rest => n + delayCycles rest
  | .pin _ _ :: rest | .dir _ :: rest | .drive _ :: rest | .sample _ :: rest | .fail _ :: rest =>
    delayCycles rest

/-! ## Commands of a transfer trace (R103) -/

/-- A command of the transfer trace: the byte of a `C:` transfer and the bytes of the `D:` transfers up to the
next `C:` transfer. A byte the block did not drive is ⊥ and counts like any other (R47, R300). -/
structure Frame where
  opcode : Latch Byte
  args : List (Latch Byte)
deriving DecidableEq, Repr

/-- The commands of a list of transfers (R103): every `C:` transfer starts one. Reads (`RC:`, `RD:`) are no
`D:` transfers (R91), and `D:` transfers before the first `C:` transfer belong to no command. A write under
`DC` = ⊥ is neither `C:` nor `D:` and belongs to none; no state of the invariant records one (log 35). -/
def framesOf : List Transfer → List Frame
  | [] => []
  | ⟨.w, some .low, b⟩ :: rest => ⟨b, dataBytes rest⟩ :: framesOf rest
  | ⟨.w, some .high, _⟩ :: rest | ⟨.w, none, _⟩ :: rest | ⟨.r, _, _⟩ :: rest => framesOf rest
where
  /-- The bytes of the `D:` transfers up to the next `C:` transfer. -/
  dataBytes : List Transfer → List (Latch Byte)
    | [] => []
    | ⟨.w, some .high, b⟩ :: rest => b :: dataBytes rest
    | ⟨.w, some .low, _⟩ :: _ => []
    | ⟨.w, none, _⟩ :: rest | ⟨.r, _, _⟩ :: rest => dataBytes rest

/-- The bytes, when none is ⊥. -/
def definiteBytes : List (Latch Byte) → Option (List Byte)
  | [] => some []
  | none :: _ => none
  | some b :: rest => (definiteBytes rest).map fun bs => b :: bs

/-- The instruction of a command of the transfer trace and the pixel data after it: after `WriteRam` the `D:`
bytes are pixel data, not arguments (R103, R200). `none` where a byte that the instruction depends on is ⊥
(log 35). DESIGN CHOICE (log 36): with `OPC_SET_GPIO` = 0x5C the spec does not say whether the `D:` bytes after
`C:5C` are pixel data or arguments; all of them are taken as arguments of `raw_command`, none as pixel data. -/
def Frame.instr (cfg : Config) (f : Frame) : Option (Instr × List (Latch Byte)) :=
  match f.opcode with
  | none => none
  | some opcode =>
    if opcode = 0x5C ∧ opcode ≠ cfg.opcSetGpio then some (.writeRam, f.args)
    else (definiteBytes f.args).map fun args => (decodeFrame cfg opcode args, [])

end Sys2Proof.Machine
end

