-- ==== Sys2Proof/Machine/Step.lean ====
section
/-! DEFINITION. One step of the machine: the host's next move, taken to completion (00_scope R9, 20_memory
R79, R80, log 3, log 4). -/

namespace Sys2Proof.Machine

/-- The host's next move leaves the script; an operation runs, a drawing call writes the buffer, and without
a move the block waits. -/
def step (s : State) : Host.Outcome State Fault Refusal :=
  match s.script with
  | [] => waitStep s
  | .op i :: rest => exec i { s with script := rest }
  | .draw d :: rest => drawStep d { s with script := rest }

/-- The instruction the decoder reads from a word of the opcode table, placed as the host's next operation
(log 3); nothing else changes. A word the decoder refuses places nothing. -/
def State.withFetchWord (s : State) (nbits w : Nat) : State :=
  match decodeTableWord nbits w with
  | some i => s.issue i
  | none => s

end Sys2Proof.Machine
end

