-- ==== Sys2Proof/Safety.lean ====
section
/-! DEFINITION. The terms claims use: when an operation executes normally, the events the spec lists for each
operation, where an abort cuts them, and the invariant of the states between operations. -/

namespace Sys2Proof.Machine

/-! ## When an operation executes normally -/

/-- No fatal fault, a ready session, no open batch (R150 d, R182, R230). -/
def State.accepts (s : State) : Prop := s.fatal = none ∧ s.session = .ready ∧ s.batchOpen = false

/-- No fatal fault, a ready session, an open batch (R158, R159). -/
def State.inBatch (s : State) : Prop := s.fatal = none ∧ s.session = .ready ∧ s.batchOpen = true

/-- The GPIO capability answers ok to the next `n` fallible steps: the named premise of every claim that an
operation succeeds (R283). -/
def State.pinsAnswerOk (s : State) (n : Nat) : Prop :=
  s.cfg.pinFail = true → ∀ a ∈ s.gpio.take n, a = GpioAnswer.ok

/-- The GPIO capability answers ok to the next `n` fallible steps and fail to the one after them. -/
def State.pinFailsAt (s : State) (n : Nat) : Prop :=
  s.cfg.pinFail = true ∧ (∀ a ∈ s.gpio.take n, a = GpioAnswer.ok) ∧ s.gpio[n]? = some .fail

/-- The transfer trace holds a sent `SetRemapMode`: its opcode byte with two definite argument bytes, whatever
their values, at any time. DESIGN CHOICE (log 34): this is the part of the host's duty of R282 that the trace of
the block shows. A `reset` after it does not undo it, though R274 and R301 make the initialisation due again
then, and it does not ask for the values of R294 and R298, which the spec does not give. -/
def State.remapModeSent (s : State) : Prop :=
  ∃ f ∈ framesOf s.transfers, ∃ a b more, f = ⟨some 0xA0, some a :: some b :: more⟩

/-! ## The events of each operation, as the spec lists them -/

/-- R152 (f). -/
def resetEvents (d : DelayCounts) : List Event :=
  [.pin .res .high, .delay d.dRes, .pin .res .low, .delay d.dRes, .pin .res .high, .delay d.dRes,
   .dir .output, .pin .cs .high, .pin .wr .high, .pin .rd .high, .pin .cs .low]

/-- R154, R155 (f). -/
def writeEvents (d : DelayCounts) (type : TxType) (b : Byte) : List Event :=
  [.dir .output, .drive b, .pin .dc (match type with | .command => .low | .data => .high), .pin .cs .low,
   .delay d.dAs, .pin .wr .low, .delay d.dWl, .pin .wr .high, .delay d.dWh, .pin .cs .high]

/-- R157. -/
def beginEvents (d : DelayCounts) : List Event := [.pin .dc .high, .pin .cs .low, .delay d.dBas]

/-- R158. -/
def byteEvents (d : DelayCounts) (b : Byte) : List Event :=
  [.drive b, .pin .wr .low, .delay d.dBwl, .pin .wr .high, .delay d.dBwh]

/-- R160, R161 (d). -/
def readEvents (d : DelayCounts) (type : TxType) (v : Byte) : List Event :=
  [.dir .input, .pin .dc (match type with | .command => .low | .data => .high), .pin .cs .low, .pin .rd .low,
   .delay d.dRdl, .sample v, .pin .rd .high, .pin .cs .high]

/-- One single write of the opcode as Command, then one of each argument as Data (R180, R93). -/
def frameEvents (d : DelayCounts) (opcode : Byte) (args : List Byte) : List Event :=
  writeEvents d .command opcode ++ args.flatMap (writeEvents d .data)

/-- `multi_write_begin`, the bytes, `multi_write_end` (R159, R236). -/
def batchEvents (d : DelayCounts) (bytes : List Byte) : List Event :=
  beginEvents d ++ bytes.flatMap (byteEvents d) ++ [.pin .cs .high]

/-- R231, R235: three commands with the window of the aligned rectangle, then the batch. -/
def refreshEvents (cfg : Config) (a : Rect) (bytes : List Byte) : List Event :=
  frameEvents cfg.delays 0x15
    [BitVec.ofInt 8 ((cfg.colStart + a.x / 4) % 128), BitVec.ofInt 8 ((cfg.colStart + (a.x + a.w) / 4 - 1) % 128)] ++
  frameEvents cfg.delays 0x75
    [BitVec.ofInt 8 ((cfg.rowStart + a.y) % 128), BitVec.ofInt 8 ((cfg.rowStart + a.y + a.h) % 128)] ++
  frameEvents cfg.delays 0x5C [] ++
  batchEvents cfg.delays bytes

/-- What is left of an operation's events when its `n`-th fallible step (from 0) fails: the events before it,
then `Fail` of that step, and nothing after it (R46, R265). -/
def failAt : Nat → List Event → List Event
  | _, [] => []
  | n, .delay k :: rest => .delay k :: failAt n rest
  | _, .fail p :: _ => [.fail p]
  | 0, .pin line level :: _ => [.fail (.pin line level)]
  | 0, .dir d :: _ => [.fail (.dir d)]
  | 0, .drive b :: _ => [.fail (.drive b)]
  | 0, .sample _ :: _ => [.fail .sample]
  | n + 1, e :: rest => e :: failAt n rest

/-! ## The states operations leave -/

/-- After a completed operation that appended `events`, asked `asks` times and returned `r`; the latches are
given. -/
def State.completed (s : State) (pins : Latches) (events : List Event) (asks : Nat) (r : Result) : State :=
  { s with
    pins := pins
    trace := s.trace ++ events
    gpio := s.gpio.drop asks
    seq := .idle
    result := some r }

/-- After `raw_command(opcode, args)`: `CS = 1`, `WR = 1`, `DIR = Out`, `DC` of the last byte's type, `DOUT`
the last byte (R180); one write is 7 fallible steps. -/
def State.sentFrame (s : State) (opcode : Byte) (args : List Byte) : State :=
  s.completed
    { s.pins with
      dir := some .output
      dout := some (args.getLastD opcode)
      dc := some (if args = [] then .low else .high)
      cs := some .high
      wr := some .high }
    (frameEvents s.cfg.delays opcode args) (7 * (1 + args.length)) .ok

/-- After an operation aborted at its `n`-th fallible step (R265). -/
def State.abortedAt (s : State) (n : Nat) (events : List Event) : State :=
  { s with
    pins := Latches.unknown
    session := .broken
    batchOpen := false
    seq := .idle
    result := some .errPin
    trace := s.trace ++ failAt n events
    gpio := s.gpio.drop (n + 1) }

/-! ## The invariant -/

/-- What holds between operations, in every state a run reaches. -/
structure State.Inv (s : State) : Prop where
  /-- The pixel buffer keeps its canonical form. -/
  fbCanonical : Memory.wf s.fb = true
  /-- Every pixel byte is in 0..15: the invariant the host keeps (R61, R282). -/
  pixels : ∀ k, (memRead s.fb k).toNat ≤ 15
  /-- The sequencer is idle between operations, unless a fatal fault stopped it (R28, R263). -/
  idle : s.fatal = none → s.seq = .idle
  /-- While a batch is open the session is ready, `CS = 0` and `DC = 1` (R35). -/
  batch : s.batchOpen = true → s.session = .ready ∧ s.pins.cs = some .low ∧ s.pins.dc = some .high
  /-- In a ready session the strobes and `RES` are high, `CS` and `DIR` definite (R25, R155 c, R304). -/
  lines : s.session = .ready → s.pins.res = some .high ∧ s.pins.wr = some .high ∧ s.pins.rd = some .high ∧
    s.pins.cs ≠ none ∧ s.pins.dir ≠ none
  /-- Outside a ready session every latch is ⊥ (R21, R26, R265). -/
  unknown : s.session ≠ .ready → s.pins = Latches.unknown
  /-- The latches are those the pin event trace leaves (R17, R46). -/
  replay : latchesOf s.trace = s.pins

end Sys2Proof.Machine
end

