-- ==== Sys2Proof/Certificates/Slice0/Obligations.lean ====
section
/-! DEFINITION. The statements for the provers. Each docstring names the rule of spec/ it formalises. -/

open Sys2Proof Sys2Proof.Machine

/-! ## Reset -/

/-- R49: the power-on values, the values after a completed `reset`, and that `reset` leads from one to the
other. (That `State.reset` is the second column is log 1.) -/
def Obligations.ResetStateValues : Prop :=
  State.powerOn.pins = Latches.unknown ∧ State.powerOn.seq = .idle ∧ State.powerOn.session = .unreset ∧
  State.powerOn.batchOpen = false ∧ State.powerOn.fatal = none ∧ State.powerOn.trace = [] ∧
  State.powerOn.transfers = [] ∧
  exec .reset State.powerOn = .next State.reset ∧
  State.reset.pins.res = some .high ∧ State.reset.pins.cs = some .low ∧ State.reset.pins.wr = some .high ∧
  State.reset.pins.rd = some .high ∧ State.reset.pins.dir = some .output ∧
  State.reset.pins.dc = State.powerOn.pins.dc ∧ State.reset.pins.dout = State.powerOn.pins.dout ∧
  State.reset.seq = .idle ∧ State.reset.session = .ready ∧ State.reset.batchOpen = false

/-- R151, R152 (a), (f): `reset` in every session state, with or without an open batch; everything not named is
unchanged. Its transfer trace grows by nothing, whatever went before (R292). -/
def Obligations.ResetOperationCompletes : Prop :=
  ∀ s : State, s.fatal = none → s.pinsAnswerOk 8 →
    ∃ t, exec .reset s = .next t ∧
      t = { s.completed
              { s.pins with
                res := some .high, cs := some .low, wr := some .high, rd := some .high, dir := some .output }
              (resetEvents s.cfg.delays) 8 .ok with
            session := .ready, batchOpen := false } ∧
      t.transfers = s.transfers

/-! ## Bus transactor -/

/-- 42 section 2 (R154 steps, state written, transfer): the single write, and the one transfer it records. -/
def Obligations.SingleWriteCompletes : Prop :=
  ∀ (type : TxType) (b : Byte) (s : State), s.accepts → s.pinsAnswerOk 7 →
    ∃ t, exec (.write type b) s = .next t ∧
      t = s.completed
            { s.pins with
              dir := some .output, dout := some b,
              dc := some (match type with | .command => .low | .data => .high),
              cs := some .high, wr := some .high }
            (writeEvents s.cfg.delays type b) 7 .ok ∧
      t.transfers = s.transfers ++ [⟨.w, some (match type with | .command => .low | .data => .high), some b⟩]

/-- R157: `multi_write_begin` writes `DC`, `CS` and the batch flag, and not the direction. -/
def Obligations.BatchBeginCompletes : Prop :=
  ∀ s : State, s.accepts → s.pinsAnswerOk 2 →
    exec .multiWriteBegin s = .next
      { s.completed { s.pins with dc := some .high, cs := some .low } (beginEvents s.cfg.delays) 2 .ok with
        batchOpen := true }

/-- 42 section 3 (R158 steps and state written): one byte of the batch. -/
def Obligations.BatchByteCompletes : Prop :=
  ∀ (b : Byte) (s : State), s.inBatch → s.pinsAnswerOk 3 →
    exec (.multiWriteByte b) s = .next
      (s.completed { s.pins with dout := some b, wr := some .high } (byteEvents s.cfg.delays b) 3 .ok)

/-- R47 with R158 and R300: a batched byte is one data transfer; it carries the byte when the bus is driven and
⊥ when it is in input mode (the direction hazard). Over the states of the invariant. -/
def Obligations.BatchByteTransfer : Prop :=
  ∀ (b : Byte) (s : State), s.Inv → s.inBatch → s.pinsAnswerOk 3 →
    ∃ t, exec (.multiWriteByte b) s = .next t ∧
      (s.pins.dir = some .output → t.transfers = s.transfers ++ [⟨.w, some .high, some b⟩]) ∧
      (s.pins.dir = some .input → t.transfers = s.transfers ++ [⟨.w, some .high, none⟩])

/-- R159: `multi_write_end` inside a batch, where its one step succeeds and where it fails; without a batch it is
refused; and a batch of no byte is legal and records no transfer. -/
def Obligations.BatchEndCompletes : Prop :=
  (∀ s : State, s.inBatch → s.pinsAnswerOk 1 →
    exec .multiWriteEnd s = .next
      { s.completed { s.pins with cs := some .high } [.pin .cs .high] 1 .ok with batchOpen := false }) ∧
  (∀ s : State, s.inBatch → s.pinFailsAt 0 →
    exec .multiWriteEnd s = .next (s.abortedAt 0 [.pin .cs .high])) ∧
  (∀ s : State, s.accepts → exec .multiWriteEnd s = .refused .batchOrder) ∧
  (∀ s : State, s.accepts → s.pinsAnswerOk 3 →
    ∃ t u, exec .multiWriteBegin s = .next t ∧ exec .multiWriteEnd t = .next u ∧
      u.trace = s.trace ++ beginEvents s.cfg.delays ++ [.pin .cs .high] ∧ u.transfers = s.transfers ∧
      u.batchOpen = false)

/-- 42 section 4 (R160 steps, state written, transfer): the single read returns the byte the controller drives,
leaves the bus in input mode and records one read transfer. The controller's byte is the listed one, and
past the list the free value of log 6. -/
def Obligations.SingleReadCompletes : Prop :=
  ∀ (type : TxType) (s : State), s.accepts → s.pinsAnswerOk 7 →
    ∃ v t, exec (.read type) s = .next t ∧
      t = { s.completed
              { s.pins with
                dir := some .input, dc := some (match type with | .command => .low | .data => .high),
                cs := some .high, rd := some .high }
              (readEvents s.cfg.delays type v) 7 (.okByte v) with
            samples := s.samples.tail
            draws := if s.samples = [] then s.draws + 1 else s.draws } ∧
      (∀ b rest, s.samples = b :: rest → v = b) ∧
      (s.samples = [] → v = Config.freeSample s.draws) ∧
      t.transfers =
        s.transfers ++ [⟨.r, some (match type with | .command => .low | .data => .high), some v⟩]

/-- R24, its last sentence: no operation reads a latch back. Two states that differ only in their latches get
the same answer, and next states that differ at most in their latches. -/
def Obligations.LatchesAreWriteOnly : Prop :=
  ∀ (i : Instr) (s : State) (p : Latches),
    match exec i s, exec i { s with pins := p } with
    | .next t, .next u => ∃ q, u = { t with pins := q }
    | .refused r, .refused r' => r = r'
    | .fault f, .fault f' => f = f'
    | _, _ => False

/-- R24: which latches each operation that returns without error may write. -/
def Obligations.LatchFrameOfOperations : Prop :=
  ∀ (i : Instr) (s t : State), exec i s = .next t → t.result ≠ some .errPin →
    (i ≠ .reset → t.pins.res = s.pins.res) ∧
    (i ≠ .reset → (∀ type, i ≠ .read type) → t.pins.rd = s.pins.rd) ∧
    (i = .reset → t.pins.dc = s.pins.dc ∧ t.pins.dout = s.pins.dout) ∧
    (i = .multiWriteBegin →
      t.pins.wr = s.pins.wr ∧ t.pins.dout = s.pins.dout ∧ t.pins.dir = s.pins.dir) ∧
    (∀ b, i = .multiWriteByte b →
      t.pins.cs = s.pins.cs ∧ t.pins.dc = s.pins.dc ∧ t.pins.dir = s.pins.dir) ∧
    (i = .multiWriteEnd →
      t.pins.wr = s.pins.wr ∧ t.pins.dc = s.pins.dc ∧ t.pins.dout = s.pins.dout ∧ t.pins.dir = s.pins.dir) ∧
    (∀ type, i = .read type → t.pins.wr = s.pins.wr ∧ t.pins.dout = s.pins.dout) ∧
    (∀ r n, i = .bestFitX r n → t.pins = s.pins)

/-! ## Command encoder -/

/-- R180: `raw_command` sends the opcode as Command and each argument as Data, whatever their values; a failing
step of any byte aborts it at once, the bytes after it are not sent and those before it are not taken back;
outside a ready session without a batch it is refused. -/
def Obligations.RawCommandCompletes : Prop :=
  ∀ (opcode : Byte) (args : List Byte) (s : State),
    (s.accepts → s.pinsAnswerOk (7 * (1 + args.length)) →
      ∃ t, exec (.rawCommand opcode args) s = .next t ∧ t = s.sentFrame opcode args ∧
        t.trace.length = s.trace.length + 10 * (1 + args.length) ∧
        t.transfers = s.transfers ++ ⟨.w, some .low, some opcode⟩ :: args.map fun a => ⟨.w, some .high, some a⟩) ∧
    (∀ n, s.accepts → n < 7 * (1 + args.length) → s.pinFailsAt n →
      exec (.rawCommand opcode args) s = .next (s.abortedAt n (frameEvents s.cfg.delays opcode args))) ∧
    (¬ s.accepts → ∃ r, exec (.rawCommand opcode args) s = .refused r)

/-- R181: `command(c)` is `raw_command(opcode(c), args(c))`, in every state, for every command in its domain; in a
ready session it completes; and its bytes depend on `c` alone, and on `OPC_SET_GPIO` for `SetGpio`. -/
def Obligations.CommandIsRawCommand : Prop :=
  ∀ (c : Command) (s : State), (∀ mode, c = .setMode mode → 4 ≤ mode.toNat ∧ mode.toNat ≤ 7) →
    exec (.command c) s = exec (.rawCommand (c.opcode s.cfg) c.args) s ∧
    (s.accepts → s.pinsAnswerOk (7 * (1 + c.args.length)) →
      exec (.command c) s = .next (s.sentFrame (c.opcode s.cfg) c.args)) ∧
    (∀ cfg : Config, (∀ g0 g1, c ≠ .setGpio g0 g1) → c.bytes cfg = c.bytes s.cfg) ∧
    (∀ cfg : Config, cfg.opcSetGpio = s.cfg.opcSetGpio → c.bytes cfg = c.bytes s.cfg)

/-- The opcode table's 26 command rows are the variants of `command(c)` (R2, R181). -/
def Obligations.CommandRowsAreCommands : Prop :=
  ∀ (i : Instr) (c : Command) (s : State), i.toCommand = some c → exec i s = exec (.command c) s

/-- R184, R200, R201, R203, R207, R208: the commands of one byte, without an operand or with a flag inside the
opcode byte. -/
def Obligations.OneByteCommandsComplete : Prop :=
  ∀ s : State, s.accepts → s.pinsAnswerOk 7 →
    exec .writeRam s = .next (s.sentFrame 0x5C []) ∧
    exec .readRam s = .next (s.sentFrame 0x5D []) ∧
    exec .exitPartialDisplay s = .next (s.sentFrame 0xA9 []) ∧
    exec .setDefaultGrayScaleTable s = .next (s.sentFrame 0xB9 []) ∧
    exec .enableGrayScaleTable s = .next (s.sentFrame 0x00 []) ∧
    (∀ enable : Bool, exec (.setDisplayOn enable) s = .next (s.sentFrame (if enable then 0xAF else 0xAE) []))

/-- R185 to R188, R193 to R196, R205: one argument byte of masked fields; `a & (2^k - 1)` is `a mod 2^k`. -/
def Obligations.MaskedCommandsComplete : Prop :=
  ∀ s : State, s.accepts → s.pinsAnswerOk 14 →
    (∀ div freq : Byte, exec (.setClockDivAndOscFreq div freq) s =
      .next (s.sentFrame 0xB3 [BitVec.ofNat 8 (div.toNat % 16 + 16 * (freq.toNat % 16))])) ∧
    (∀ n : Byte, exec (.setMuxRatio n) s = .next (s.sentFrame 0xCA [BitVec.ofNat 8 (n.toNat % 128)])) ∧
    (∀ n : Byte, exec (.setStartLine n) s = .next (s.sentFrame 0xA1 [BitVec.ofNat 8 (n.toNat % 128)])) ∧
    (∀ n : Byte, exec (.setOffset n) s = .next (s.sentFrame 0xA2 [BitVec.ofNat 8 (n.toNat % 128)])) ∧
    (∀ v : Byte, exec (.masterContrastCurrentControl v) s =
      .next (s.sentFrame 0xC7 [BitVec.ofNat 8 (v.toNat % 16)])) ∧
    (∀ p1 p2 : Byte, exec (.setPhaseLength p1 p2) s =
      .next (s.sentFrame 0xB1 [BitVec.ofNat 8 (p1.toNat % 16 + 16 * (p2.toNat % 16))])) ∧
    (∀ v : Byte, exec (.setPrechargeVoltage v) s = .next (s.sentFrame 0xBB [BitVec.ofNat 8 (v.toNat % 32)])) ∧
    (∀ v : Byte, exec (.setVcomh v) s = .next (s.sentFrame 0xBE [BitVec.ofNat 8 (v.toNat % 8)])) ∧
    (∀ p : Byte, exec (.setSecondPrechargePeriod p) s =
      .next (s.sentFrame 0xB6 [BitVec.ofNat 8 (p.toNat % 16)]))

/-- R183, R190, R192, R204: one argument byte that is not masked; the formula is evaluated on naturals and
truncated to 8 bits (R98). The opcode of `SetGpio` is the parameter `OPC_SET_GPIO`. -/
def Obligations.UnmaskedCommandsComplete : Prop :=
  ∀ s : State, s.accepts → s.pinsAnswerOk 14 →
    (∀ lock : Bool, exec (.setCommandLock lock) s = .next (s.sentFrame 0xFD [if lock then 0x16 else 0x12])) ∧
    (∀ mode : Byte, exec (.vddFunctionSelect mode) s = .next (s.sentFrame 0xAB [mode])) ∧
    (∀ v : Byte, exec (.setContrastCurrent v) s = .next (s.sentFrame 0xC1 [v])) ∧
    (∀ g0 g1 : Byte, exec (.setGpio g0 g1) s =
      .next (s.sentFrame s.cfg.opcSetGpio [BitVec.ofNat 8 (g0.toNat ||| (g1.toNat <<< 2))]))

/-- R189, R191, R198, R199, R202: the commands of two argument bytes. -/
def Obligations.TwoArgumentCommandsComplete : Prop :=
  ∀ s : State, s.accepts → s.pinsAnswerOk 21 →
    (∀ inc colRemap nibbleRemap scanDir splitOddEven dualCom : Bool,
      exec (.setRemapMode inc colRemap nibbleRemap scanDir splitOddEven dualCom) s =
        .next (s.sentFrame 0xA0
          [BitVec.ofNat 8 (inc.toNat + 2 * colRemap.toNat + 4 * nibbleRemap.toNat + 16 * scanDir.toNat +
            32 * splitOddEven.toNat), BitVec.ofNat 8 (1 + 16 * dualCom.toNat)])) ∧
    (∀ vsl quality : Byte, exec (.displayEnhancementA vsl quality) s =
      .next (s.sentFrame 0xB4
        [BitVec.ofNat 8 (0xA0 ||| vsl.toNat), BitVec.ofNat 8 (0x05 ||| (quality.toNat <<< 3))])) ∧
    (∀ first last : Int, exec (.setColumnAddress first last) s =
      .next (s.sentFrame 0x15 [BitVec.ofNat 8 (first % 128).toNat, BitVec.ofNat 8 (last % 128).toNat])) ∧
    (∀ first last : Int, exec (.setRowAddress first last) s =
      .next (s.sentFrame 0x75 [BitVec.ofNat 8 (first % 128).toNat, BitVec.ofNat 8 (last % 128).toNat])) ∧
    (∀ first last : Byte, exec (.enablePartialDisplay first last) s =
      .next (s.sentFrame 0xA8 [BitVec.ofNat 8 (first.toNat % 128), BitVec.ofNat 8 (last.toNat % 128)]))

/-- R197, R270: `SetMode` sends its one byte for the admitted modes 4 to 7 and is refused for every other, as the
command's row and by `command`. -/
def Obligations.SetModeByDomain : Prop :=
  ∀ (mode : Byte) (s : State), s.accepts →
    (4 ≤ mode.toNat → mode.toNat ≤ 7 → s.pinsAnswerOk 7 →
      exec (.setMode mode) s = .next (s.sentFrame (BitVec.ofNat 8 (0xA0 + mode.toNat)) [])) ∧
    (mode.toNat < 4 ∨ 7 < mode.toNat →
      exec (.setMode mode) s = .refused .modeDomain ∧ exec (.command (.setMode mode)) s = .refused .modeDomain)

/-- R206: the 16 raw table bytes, index 0 first. -/
def Obligations.GrayScaleTableCompletes : Prop :=
  ∀ (t : GrayTable) (s : State), s.accepts → s.pinsAnswerOk 119 →
    ∃ u, exec (.setGrayScaleTable t) s = .next u ∧ u = s.sentFrame 0xB8 t.toList ∧
      u.trace.length = s.trace.length + 170

/-- R102: the reserved bits of argument bytes are sent as the fixed values, for every operand. -/
def Obligations.ReservedBitsAreFixed : Prop :=
  (∀ n : Byte, ∀ a ∈ (Command.setMuxRatio n).args ++ (Command.setStartLine n).args ++ (Command.setOffset n).args,
    a.getLsbD 7 = false) ∧
  (∀ first last : Int, ∀ a ∈ (Command.setColumnAddress first last).args ++ (Command.setRowAddress first last).args,
    a.getLsbD 7 = false) ∧
  (∀ first last : Byte, ∀ a ∈ (Command.enablePartialDisplay first last).args, a.getLsbD 7 = false) ∧
  (∀ inc colRemap nibbleRemap scanDir splitOddEven dualCom : Bool,
    ∃ a b, (Command.setRemapMode inc colRemap nibbleRemap scanDir splitOddEven dualCom).args = [a, b] ∧
      a.getLsbD 3 = false ∧ a.getLsbD 6 = false ∧ a.getLsbD 7 = false ∧
      b.getLsbD 0 = true ∧ b.getLsbD 1 = false ∧ b.getLsbD 2 = false ∧ b.getLsbD 3 = false ∧
      b.getLsbD 5 = false ∧ b.getLsbD 6 = false ∧ b.getLsbD 7 = false)

/-- R101, its first sentence: with the printed parameter the commands in their domain produce exactly the 29
opcode bytes of the table's rows. -/
def Obligations.OpcodeBytesOfCommands : Prop :=
  (∀ b : Byte, (∃ c : Command, c.wellFormed = true ∧ c.opcode Config.documented = b) ↔ rowUses b = true) ∧
  ((List.range 256).filter fun k => rowUses (BitVec.ofNat 8 k)).length = 29

/-! ## Decoder and encoder -/

/-- Encode, then decode: every command in its domain, in front of any bytes, comes back with its operands
reduced to what the bytes carry, when its first byte determines it (R94, R209 c, d). (The reduced operands of
`SetGpio` are log 33.) -/
def Obligations.DecodeOfEncode : Prop :=
  ∀ (cfg : Config) (i : Instr) (c : Command) (rest : List Byte),
    i.toCommand = some c → i.wellFormed = true → c.unambiguous cfg = true →
    ∃ bs, encode cfg i = some bs ∧ decode cfg (bs ++ rest) = .ok (c.carried, rest)

/-- Every command row with operands in the range of their fields: decode of encode is the row itself, in front of
any bytes, when its first byte determines it. (The range of the two fields of `SetGpio` is log 33, that the
decoder answers the command is log 15.) -/
def Obligations.InRangeOperandsAreCarried : Prop :=
  ∀ (cfg : Config) (i : Instr) (c : Command) (rest : List Byte),
    i.toCommand = some c → i ≠ .command c → c.inRange = true → c.unambiguous cfg = true →
    ∃ bs, encode cfg i = some bs ∧ decode cfg (bs ++ rest) = .ok (i, rest)

/-- Decode, then encode: whatever the decoder reads, the instruction it answers has exactly the bytes that were
read, so executing it puts them on the bus (log 15; how many bytes it reads on a shared opcode byte is log 8). -/
def Obligations.DecoderReadsExactly : Prop :=
  ∀ (cfg : Config) (bytes rest : List Byte) (i : Instr),
    decode cfg bytes = .ok (i, rest) → ∃ e, encode cfg i = some e ∧ e ++ rest = bytes

/-- R95: with the printed opcode the decoder reports "0xB6 with one argument" and does not choose between the
two commands that share the byte. -/
def Obligations.SharedOpcodeIsNotChosen : Prop :=
  ∀ (cfg : Config) (g0 g1 p : Byte) (rest : List Byte), cfg.opcSetGpio = 0xB6 →
    decode cfg ((Command.setGpio g0 g1).bytes cfg ++ rest) = .ok (.rawCommand 0xB6 [gpioByte g0 g1], rest) ∧
    decode cfg ((Command.setSecondPrechargePeriod p).bytes cfg ++ rest) = .ok (.rawCommand 0xB6 [p &&& 0xF], rest)

/-- Words written out from R94 decode to their commands, and reserved ones are refused or left raw. -/
def Obligations.WordsDecodeAsTheTableSays : Prop :=
  decodeTableWord 16 0x16FD = some (.setCommandLock true) ∧
  decodeTableWord 8 0xAF = some (.setDisplayOn true) ∧
  decodeTableWord 8 0xA6 = some (.setMode 6) ∧
  decodeTableWord 24 0x5B1C15 = some (.setColumnAddress 28 91) ∧
  decodeTableWord 24 0x1114A0 = some (.setRemapMode false false true true false true) ∧
  decodeTableWord 8 0x5C = some .writeRam ∧
  decodeTableWord 8 0xD1 = none ∧
  decodeTableWord 16 0x00FD = some (.rawCommand 0xFD [0x00])

/-! ## Geometry -/

/-- R16: floor division is the greatest `q` with `q*n <= a`, ceiling division the least with `q*n >= a`; for
negative dividends they round toward minus and plus infinity. -/
def Obligations.FloorAndCeilingDivision : Prop :=
  (∀ a n : Int, 0 < n →
    floorDiv a n * n ≤ a ∧ (∀ q : Int, q * n ≤ a → q ≤ floorDiv a n) ∧
    a ≤ ceilDiv a n * n ∧ (∀ q : Int, a ≤ q * n → ceilDiv a n ≤ q)) ∧
  floorDiv (-3) 4 = -1 ∧ ceilDiv (-1) 4 = 0

/-- 40 section on R120: `best_fit_x` returns the formula's rectangle in any session state, and changes nothing
else. -/
def Obligations.BestFitCompletes : Prop :=
  ∀ (r : Rect) (n : Int) (s : State), s.fatal = none → 0 < n → 0 < r.w → 0 < r.h →
    exec (.bestFitX r n) s = .next
      { s with
        seq := .idle
        result := some (.okRect
          { x := floorDiv r.x n * n
            y := r.y
            w := ceilDiv (r.x + r.w) n * n - floorDiv r.x n * n
            h := r.h }) }

/-- R123: the laws of `best_fit_x`. -/
def Obligations.BestFitLaws : Prop :=
  ∀ (r : Rect) (n : Int) (s : State), s.fatal = none → 0 < n → 0 < r.w → 0 < r.h →
    ∃ fit t, exec (.bestFitX r n) s = .next t ∧ t.result = some (.okRect fit) ∧
      fit.x % n = 0 ∧ (fit.x + fit.w) % n = 0 ∧ fit.x ≤ r.x ∧ r.x + r.w ≤ fit.x + fit.w ∧
      fit.y = r.y ∧ fit.h = r.h ∧ r.x - fit.x < n ∧ (fit.x + fit.w) - (r.x + r.w) < n ∧
      n ≤ fit.w ∧ fit.w % n = 0 ∧ fit.w ≤ r.w + 2 * (n - 1) ∧
      exec (.bestFitX fit n) s = .next t ∧
      (r.x % n = 0 → r.w % n = 0 → fit = r) ∧ (r.w = 1 → fit.w = n) ∧ (n = 1 → fit = r)

/-- R121, R264 with R263's effect: a non-positive `min_span` halts the block; the latches keep their values and
no result is returned. (That it is checked before the empty rectangle is log 13.) -/
def Obligations.NonPositiveSpanHalts : Prop :=
  ∀ (r : Rect) (n : Int) (s : State), s.fatal = none → n ≤ 0 →
    exec (.bestFitX r n) s = .next
      { s with seq := .busy (.bestFitX r n) 0, result := none, fatal := some .contract }

/-! ## Refresh engine -/

/-- 44 (R231, R234, R235, R236): `refresh` of a rectangle whose aligned rectangle lies inside the buffer sends the
window, the write command and one batch, and leaves everything but the latches, the trace and the result
unchanged. -/
def Obligations.RefreshCompletes : Prop :=
  ∀ (dirty : Rect) (s : State), s.accepts → 0 < dirty.w → 0 < dirty.h →
    rectInBuffer s.cfg (alignX dirty 4) = true →
    s.pinsAnswerOk (52 + 3 * (streamBytes s.cfg s.fb (alignX dirty 4)).length) →
    exec (.refresh dirty) s = .next
      (s.completed
        { s.pins with
          dir := some .output, dc := some .high, cs := some .high, wr := some .high,
          dout := (streamBytes s.cfg s.fb (alignX dirty 4)).getLast? }
        (refreshEvents s.cfg (alignX dirty 4) (streamBytes s.cfg s.fb (alignX dirty 4)))
        (52 + 3 * (streamBytes s.cfg s.fb (alignX dirty 4)).length) .ok)

/-- R235 with R234 and R236: the transfers of a `refresh`: seven addressing transfers, each window value masked to
7 bits, then the streamed bytes as data; `7 + N` transfers (R239). -/
def Obligations.RefreshTransfers : Prop :=
  ∀ (dirty a : Rect) (s : State), s.accepts → 0 < dirty.w → 0 < dirty.h → a = alignX dirty 4 →
    rectInBuffer s.cfg a = true → s.pinsAnswerOk (52 + 3 * (streamBytes s.cfg s.fb a).length) →
    ∃ t, exec (.refresh dirty) s = .next t ∧
      t.transfers = s.transfers ++
        [⟨.w, some .low, some 0x15⟩,
         ⟨.w, some .high, some (BitVec.ofNat 8 ((s.cfg.colStart + a.x / 4) % 128).toNat)⟩,
         ⟨.w, some .high, some (BitVec.ofNat 8 ((s.cfg.colStart + (a.x + a.w) / 4 - 1) % 128).toNat)⟩,
         ⟨.w, some .low, some 0x75⟩,
         ⟨.w, some .high, some (BitVec.ofNat 8 ((s.cfg.rowStart + a.y) % 128).toNat)⟩,
         ⟨.w, some .high, some (BitVec.ofNat 8 ((s.cfg.rowStart + a.y + a.h) % 128).toNat)⟩,
         ⟨.w, some .low, some 0x5C⟩] ++
        (streamBytes s.cfg s.fb a).map fun b => ⟨.w, some .high, some b⟩

/-- R236, R64, R60: the stream is row-major; the byte at row `r`, group `g`, half `j` carries the pixels
`x + 4g + 2j` (left) and the next one, read at `y*FB_STRIDE + x`; `N = (a.w/2) * a.h` bytes (R239). -/
def Obligations.StreamIsRowMajor : Prop :=
  ∀ (cfg : Config) (fb : Memory) (a : Rect) (r g j : Nat), a.w % 4 = 0 →
    (r : Int) < a.h → (g : Int) < a.w / 4 → j < 2 →
    (streamBytes cfg fb a).length = (a.w / 2).toNat * a.h.toNat ∧
    (streamBytes cfg fb a)[r * (a.w / 2).toNat + 2 * g + j]? =
      some (streamByte
        (memRead fb ((a.y + r) * cfg.fbStride + (a.x + 4 * g + 2 * j)).toNat)
        (memRead fb ((a.y + r) * cfg.fbStride + (a.x + 4 * g + 2 * j + 1)).toNat))

/-- R237, R63: `pack` puts the left pixel's low nibble in bits 7..4 and the right one's in bits 3..0; for pixels in
0..15 it is the source's formula; and a 4-pixel group with such right pixels streams the packing of its first two
pixels and then that of its last two. -/
def Obligations.PixelsArePackedInNibbles : Prop :=
  (∀ pa pb : Byte, (pack pa pb).toNat = 16 * (pa.toNat % 16) + pb.toNat % 16) ∧
  (∀ pa pb : Byte, pa.toNat ≤ 15 → pb.toNat ≤ 15 → (pack pa pb).toNat = (pa.toNat <<< 4) ||| pb.toNat) ∧
  (∀ (cfg : Config) (fb : Memory) (x0 y : Int),
    (pixel cfg fb (x0 + 1) y).toNat ≤ 15 → (pixel cfg fb (x0 + 3) y).toNat ≤ 15 →
      groupBytes cfg fb x0 y =
        [pack (pixel cfg fb x0 y) (pixel cfg fb (x0 + 1) y), pack (pixel cfg fb (x0 + 2) y) (pixel cfg fb (x0 + 3) y)])

/-- R238, U5: for any pixel bytes the streamed byte is one of the two candidates, the masked form or the
truncated formula. -/
def Obligations.WidePixelsGiveOneOfTwoBytes : Prop :=
  ∀ pa pb : Byte,
    streamByte pa pb = BitVec.ofNat 8 (16 * (pa.toNat % 16) + pb.toNat % 16) ∨
    streamByte pa pb = BitVec.ofNat 8 ((pa.toNat <<< 4) ||| pb.toNat)

/-- R243 (c): dirty rectangles with the same aligned rectangle have the same effect. -/
def Obligations.RefreshDependsOnAlignedRect : Prop :=
  ∀ (d1 d2 : Rect) (s : State), 0 < d1.w → 0 < d1.h → 0 < d2.w → 0 < d2.h →
    alignX d1 4 = alignX d2 4 → rectInBuffer s.cfg (alignX d1 4) = true →
    exec (.refresh d1) s = exec (.refresh d2) s

/-- R85, R243 (a): two refreshes of the same rectangle with an unchanged buffer append the same events. -/
def Obligations.RefreshIsIdempotent : Prop :=
  ∀ (dirty : Rect) (s t u : State), exec (.refresh dirty) s = .next t → exec (.refresh dirty) t = .next u →
    t.result = some .ok → u.result = some .ok →
    ∃ es, t.trace = s.trace ++ es ∧ u.trace = t.trace ++ es

/-- R239, last count: `refresh` reads the pixels of the aligned rectangle and no others: buffers that agree on
them give the same events. -/
def Obligations.RefreshReadsAlignedPixelsOnly : Prop :=
  ∀ (dirty : Rect) (s : State) (m : Memory), s.accepts → 0 < dirty.w → 0 < dirty.h →
    (∀ x y : Int, (alignX dirty 4).x ≤ x → x < (alignX dirty 4).x + (alignX dirty 4).w →
      dirty.y ≤ y → y < dirty.y + dirty.h →
      memRead m (y * s.cfg.fbStride + x).toNat = memRead s.fb (y * s.cfg.fbStride + x).toNat) →
    ∃ t, exec (.refresh dirty) s = .next t ∧ exec (.refresh dirty) { s with fb := m } = .next { t with fb := m }

/-- R68: with a buffer width of whole columns, the aligned rectangle of a rectangle inside the buffer is inside
it, so `refresh` meets no `Fatal(Bounds)`. -/
def Obligations.AlignedRectStaysInside : Prop :=
  ∀ (dirty : Rect) (s t : State), s.cfg.fbWidth % 4 = 0 → rectInBuffer s.cfg dirty = true →
    exec (.refresh dirty) s = .next t → t.fatal = none

/-- R263 for `refresh`: an aligned rectangle that leaves the buffer halts the block; the latches keep their values
and no result is returned. (That it is raised at entry is the choice R241 recommends, log 11.) -/
def Obligations.RefreshOutOfBoundsHalts : Prop :=
  ∀ (dirty : Rect) (s : State), s.accepts → 0 < dirty.w → 0 < dirty.h →
    ((alignX dirty 4).x < 0 ∨ (s.cfg.fbWidth : Int) < (alignX dirty 4).x + (alignX dirty 4).w ∨
      dirty.y < 0 ∨ (s.cfg.fbHeight : Int) < dirty.y + dirty.h) →
    exec (.refresh dirty) s = .next
      { s with seq := .busy (.refresh dirty) 0, result := none, fatal := some .bounds }

/-- R307: the delays a completed `refresh` records add up to those of seven single writes and one batch of
`N = (a.w/2) * a.h` bytes (R239). -/
def Obligations.RefreshDelaySum : Prop :=
  ∀ (dirty : Rect) (s t : State), exec (.refresh dirty) s = .next t → t.result = some .ok →
    delayCycles t.trace = delayCycles s.trace +
      7 * (s.cfg.delays.dAs + s.cfg.delays.dWl + s.cfg.delays.dWh) + s.cfg.delays.dBas +
      ((alignX dirty 4).w / 2).toNat * dirty.h.toNat * (s.cfg.delays.dBwl + s.cfg.delays.dBwh)

/-! ## Abnormal outcomes -/

/-- R32, R261: with the fatal flag set every operation, `reset` too, is refused. -/
def Obligations.HaltedRefusesEverything : Prop :=
  ∀ (i : Instr) (s : State), s.fatal ≠ none → exec i s = .refused .halted

/-- R267: outside a ready session every operation but `reset` and `best_fit_x` is refused. -/
def Obligations.UnreadySessionRefuses : Prop :=
  ∀ (i : Instr) (s : State), s.fatal = none → s.session ≠ .ready → i ≠ .reset →
    (∀ r n, i ≠ .bestFitX r n) → exec i s = .refused .notReady

/-- R268, R162: the batch operations out of order, and any other bus operation inside a batch, are refused. -/
def Obligations.BatchOrderRefuses : Prop :=
  ∀ (i : Instr) (s : State), s.fatal = none → s.session = .ready →
    (s.batchOpen = true → i ≠ .reset → (∀ r n, i ≠ .bestFitX r n) → (∀ b, i ≠ .multiWriteByte b) →
      i ≠ .multiWriteEnd → exec i s = .refused .batchOrder) ∧
    (s.batchOpen = false → (∀ b, exec (.multiWriteByte b) s = .refused .batchOrder) ∧
      exec .multiWriteEnd s = .refused .batchOrder)

/-- R269: an empty rectangle is refused by both operations that take one. -/
def Obligations.EmptyRectRefuses : Prop :=
  ∀ (r : Rect) (n : Int) (s : State), r.w ≤ 0 ∨ r.h ≤ 0 →
    (s.fatal = none → 0 < n → exec (.bestFitX r n) s = .refused .emptyRect) ∧
    (s.accepts → exec (.refresh r) s = .refused .emptyRect)

/-- R265: what a `PinError` changes, whichever operation meets it: the latches are ⊥, the session broken, the
batch closed, the position idle; the trace ends with the failed step; the buffer, the parameters and the
fatal flag are as before. -/
def Obligations.PinErrorEntry : Prop :=
  ∀ (i : Instr) (s t : State), exec i s = .next t → t.result = some .errPin →
    t.pins = Latches.unknown ∧ t.session = .broken ∧ t.batchOpen = false ∧ t.seq = .idle ∧
    (∃ es p, t.trace = s.trace ++ es ++ [.fail p] ∧ ∀ q, Event.fail q ∉ es) ∧
    t.fb = s.fb ∧ t.cfg = s.cfg ∧ t.fatal = s.fatal ∧ t.script = s.script

/-- R156, R262, R265: a single write or a batch operation whose `n`-th fallible step fails takes the steps before
it and none after it. -/
def Obligations.WritesFailAtStep : Prop :=
  ∀ (type : TxType) (b : Byte) (s : State) (n : Nat), s.pinFailsAt n →
    (s.accepts → n < 7 → exec (.write type b) s = .next (s.abortedAt n (writeEvents s.cfg.delays type b))) ∧
    (s.accepts → n < 2 → exec .multiWriteBegin s = .next (s.abortedAt n (beginEvents s.cfg.delays))) ∧
    (s.inBatch → n < 3 → exec (.multiWriteByte b) s = .next (s.abortedAt n (byteEvents s.cfg.delays b))) ∧
    (s.inBatch → n < 1 → exec .multiWriteEnd s = .next (s.abortedAt n [.pin .cs .high]))

/-- R152 (d), R265: a failing step of `reset`, in any session state, leaves the session broken, from which `reset`
is accepted again. -/
def Obligations.ResetFailsAtStep : Prop :=
  ∀ (s : State) (n : Nat), s.fatal = none → n < 8 → s.pinFailsAt n →
    ∃ t, exec .reset s = .next t ∧ t = s.abortedAt n (resetEvents s.cfg.delays) ∧
      ∃ u, exec .reset t = .next u

/-- R262, R265 for `read`: before the sample nothing is drawn, from the sample on its byte was. -/
def Obligations.ReadFailsAtStep : Prop :=
  ∀ (type : TxType) (s : State) (n : Nat), s.accepts → n < 7 → s.pinFailsAt n →
    exec (.read type) s = .next
      (if n ≤ 4 then s.abortedAt n (readEvents s.cfg.delays type s.sampleByte)
       else { s.abortedAt n (readEvents s.cfg.delays type s.sampleByte) with
              samples := s.samples.tail
              draws := if s.samples = [] then s.draws + 1 else s.draws })

/-- R240: a failing step of any nested operation aborts `refresh` there, inside an addressing command or inside the
batch. -/
def Obligations.RefreshFailsAtStep : Prop :=
  ∀ (dirty : Rect) (s : State) (n : Nat), s.accepts → 0 < dirty.w → 0 < dirty.h →
    rectInBuffer s.cfg (alignX dirty 4) = true →
    n < 52 + 3 * (streamBytes s.cfg s.fb (alignX dirty 4)).length → s.pinFailsAt n →
    exec (.refresh dirty) s = .next
      (s.abortedAt n (refreshEvents s.cfg (alignX dirty 4) (streamBytes s.cfg s.fb (alignX dirty 4))))

/-! ## The whole machine -/

/-- R17, R41: `MemWrite` is never performed by the block: no operation changes a byte of the pixel buffer, and none
changes the parameters (R36) or the host's further moves. -/
def Obligations.OperationsNeverWriteBuffer : Prop :=
  ∀ (i : Instr) (s t : State), exec i s = .next t →
    (∀ k, memRead t.fb k = memRead s.fb k) ∧ t.fb = s.fb ∧ t.cfg = s.cfg ∧ t.script = s.script

/-- R46: the pin event trace is append-only under every step of the machine. -/
def Obligations.TraceIsAppendOnly : Prop :=
  ∀ s t : State, step s = .next t → ∃ es, t.trace = s.trace ++ es

/-- The outcomes of an operation (R28, R31, R260): it returns with the sequencer idle and a result out; or a fatal
fault stops it inside the operation, with no result and the latches as before (R263); or it is refused for a
reason of R261; it never ends in a fault. The model's choices in the second outcome: that the fault is met at
the entry, so that the position is 0 and the latches and the trace are those of the issue, is log 11 (R241 allows
any prefix of the trace for `Fatal(Bounds)`), and that a fatal fault is a next state is log 12. -/
def Obligations.OperationOutcomes : Prop :=
  ∀ (i : Instr) (s : State),
    (∃ t, exec i s = .next t ∧ t.fatal = none ∧ t.seq = .idle ∧ t.result ≠ none) ∨
    (∃ t, exec i s = .next t ∧ t.fatal ≠ none ∧ t.seq = .busy i 0 ∧ t.result = none ∧ t.pins = s.pins ∧
      t.trace = s.trace) ∨
    (∃ r, exec i s = .refused r ∧
      (r = .halted ∨ r = .notReady ∨ r = .batchOrder ∨ r = .emptyRect ∨ r = .modeDomain))

/-- The invariant of Safety.lean is kept by every step: the buffer's canonical form, pixel bytes in 0..15 (R61), the
idle sequencer, `CS` and `DC` inside a batch (R35), the idle strobes of a ready session (R304), ⊥ outside one
(R21), and latches that are those the trace leaves. (That a host's colour is a pixel value is log 34.) -/
def Obligations.StepKeepsInvariant : Prop :=
  ∀ s t : State, s.Inv → step s = .next t → t.Inv

/-- The invariant holds in both reset states, whose values are those of R49 (with R26 for the latches and R38 for the
control state). (That `State.reset` is the second column of R49 is log 1, that the buffer reads 0 there is
log 9.) -/
def Obligations.ResetMeetsInvariant : Prop := State.powerOn.Inv ∧ State.reset.Inv

/-- A step runs the operation the host places: the decoded word of the opcode table, or any head of the host's
moves; without a move the block waits (log 3). -/
def Obligations.StepRunsDecodedInstruction : Prop :=
  (∀ (s : State) (nbits w : Nat) (i : Instr), decodeTableWord nbits w = some i →
    step (s.withFetchWord nbits w) = exec i s) ∧
  (∀ (s : State) (i : Instr) (rest : List HostMove), s.script = .op i :: rest →
    step s = exec i { s with script := rest }) ∧
  (∀ s : State, s.script = [] → s.fatal = none → step s = .next s)

/-! ## The host's drawing calls -/

/-- R282 with 41: a drawing move changes the pixel buffer alone, and only while the sequencer is idle. -/
def Obligations.DrawingChangesBufferOnly : Prop :=
  ∀ (d : Draw) (rest : List HostMove) (s t : State), s.script = .draw d :: rest → step s = .next t →
    s.seq = .idle ∧ t = { s with fb := t.fb, script := rest }

/-- R134: `rect` writes the four edges of the rectangle and leaves every other byte. -/
def Obligations.RectDrawsBorder : Prop :=
  ∀ (r : Rect) (v : Color) (rest : List HostMove) (s : State), s.script = .draw (.rect r v) :: rest →
    s.seq = .idle → s.fb.wf = true → 0 < r.w → 0 < r.h → rectInBuffer s.cfg r = true →
    ∃ t, step s = .next t ∧
      ∀ k, ((memRead t.fb k).toNat = v.toNat ∧ ∃ x y : Int, k = (y * s.cfg.fbStride + x).toNat ∧
          r.x ≤ x ∧ x < r.x + r.w ∧ r.y ≤ y ∧ y < r.y + r.h ∧
          (x = r.x ∨ x = r.x + r.w - 1 ∨ y = r.y ∨ y = r.y + r.h - 1)) ∨
        (memRead t.fb k = memRead s.fb k ∧ ∀ x y : Int,
          r.x ≤ x → x < r.x + r.w → r.y ≤ y → y < r.y + r.h →
          (x = r.x ∨ x = r.x + r.w - 1 ∨ y = r.y ∨ y = r.y + r.h - 1) →
          k ≠ (y * s.cfg.fbStride + x).toNat)

/-! ## The transfer trace and the host's duties -/

/-- R103 with R47, R91 and R300: the commands of the transfer trace. A command's bytes are one more command; a batched
byte is one more byte of the last command, ⊥ counted too when the bus is not driven; a read belongs to none;
and after `WriteRam` the `D:` bytes are pixel data of any length, ⊥ among them. (What they are where `SetGpio` has
the opcode byte of `WriteRam` is the model's choice, log 36, and not stated.) -/
def Obligations.CommandBoundaries : Prop :=
  (∀ (opcode : Byte) (args : List Byte) (s : State), s.accepts → s.pinsAnswerOk (7 * (1 + args.length)) →
    ∃ t, exec (.rawCommand opcode args) s = .next t ∧
      framesOf t.transfers = framesOf s.transfers ++ [⟨some opcode, args.map some⟩]) ∧
  (∀ (b : Byte) (s : State) (fs : List Frame) (f : Frame), s.Inv → s.inBatch → s.pinsAnswerOk 3 →
    framesOf s.transfers = fs ++ [f] →
    ∃ t, exec (.multiWriteByte b) s = .next t ∧
      framesOf t.transfers =
        fs ++ [⟨f.opcode, f.args ++ [if s.pins.dir = some .output then some b else none]⟩]) ∧
  (∀ (type : TxType) (s : State), s.accepts → s.pinsAnswerOk 7 →
    ∃ t, exec (.read type) s = .next t ∧ framesOf t.transfers = framesOf s.transfers) ∧
  (∀ (cfg : Config) (data : List (Latch Byte)), cfg.opcSetGpio ≠ 0x5C →
    Frame.instr cfg ⟨some 0x5C, data⟩ = some (.writeRam, data))

/-- R103 with R46, R47 and R189: a completed `SetRemapMode` stands in the transfer trace as a command, no step takes it
out again (a `reset` does not either), and the trace of neither reset state holds one. (Which column of R49
`State.reset` is, is log 1. `State.remapModeSent` is the model's, log 34: it is not the whole of the host's duty of
R282 and says nothing of the controller's mode.) -/
def Obligations.SentRemapModeStaysInTrace : Prop :=
  (∀ (inc colRemap nibbleRemap scanDir splitOddEven dualCom : Bool) (s : State), s.accepts → s.pinsAnswerOk 21 →
    ∃ t, exec (.setRemapMode inc colRemap nibbleRemap scanDir splitOddEven dualCom) s = .next t ∧
      t.remapModeSent) ∧
  (∀ s t : State, s.remapModeSent → step s = .next t → t.remapModeSent) ∧
  ¬ State.powerOn.remapModeSent ∧ ¬ State.reset.remapModeSent
end

