-- ==== Sys2Proof/Laws/Decode.lean ====
section
/-! SUPPORT. The rows of the decoder as equations, one per opcode byte with arguments, so that no proof unfolds the
whole table (30_encoding R94). -/

namespace Sys2Proof

theorem noArg_eq_some {i j : Instr} {args : List Byte} : noArg i args = some j ↔ args = [] ∧ i = j := by
  cases args <;> simp [noArg]

theorem oneArg_eq_some {row : Byte → Option Instr} {args : List Byte} {j : Instr} :
    oneArg row args = some j ↔ ∃ a, args = [a] ∧ row a = some j := by
  constructor
  · intro h
    unfold oneArg at h
    split at h
    · next a => exact ⟨a, rfl, h⟩
    · simp at h
  · rintro ⟨a, rfl, h⟩
    exact h

theorem twoArgs_eq_some {row : Byte → Byte → Option Instr} {args : List Byte} {j : Instr} :
    twoArgs row args = some j ↔ ∃ a b, args = [a, b] ∧ row a b = some j := by
  constructor
  · intro h
    unfold twoArgs at h
    split at h
    · next a b => exact ⟨a, b, rfl, h⟩
    · simp at h
  · rintro ⟨a, b, rfl, h⟩
    exact h

theorem guarded_eq_some {fixed : Bool} {i j : Instr} : guarded fixed i = some j ↔ fixed = true ∧ i = j := by
  cases fixed <;> simp [guarded]

theorem decodeRow_setColumnAddress (s e : Byte) :
    decodeRow 0x15 [s, e] = if isField7 s && isField7 e then some (.setColumnAddress s.toNat e.toNat) else none := rfl
theorem decodeRow_setRowAddress (s e : Byte) :
    decodeRow 0x75 [s, e] = if isField7 s && isField7 e then some (.setRowAddress s.toNat e.toNat) else none := rfl
theorem decodeRow_setRemapMode (a b : Byte) :
    decodeRow 0xA0 [a, b] =
      if a &&& 0xC8 == 0 && b &&& 0xEF == 0x01 then
        some (.setRemapMode (a.getLsbD 0) (a.getLsbD 1) (a.getLsbD 2) (a.getLsbD 4) (a.getLsbD 5) (b.getLsbD 4))
      else none := rfl
theorem decodeRow_setStartLine (n : Byte) :
    decodeRow 0xA1 [n] = if isField7 n then some (.setStartLine n) else none := rfl
theorem decodeRow_setOffset (n : Byte) :
    decodeRow 0xA2 [n] = if isField7 n then some (.setOffset n) else none := rfl
theorem decodeRow_enablePartialDisplay (s e : Byte) :
    decodeRow 0xA8 [s, e] = if isField7 s && isField7 e then some (.enablePartialDisplay s e) else none := rfl
theorem decodeRow_vddFunctionSelect (mode : Byte) : decodeRow 0xAB [mode] = some (.vddFunctionSelect mode) := rfl
theorem decodeRow_setPhaseLength (a : Byte) :
    decodeRow 0xB1 [a] = some (.setPhaseLength (a &&& 0xF) (a >>> 4)) := rfl
theorem decodeRow_setClockDivAndOscFreq (a : Byte) :
    decodeRow 0xB3 [a] = some (.setClockDivAndOscFreq (a &&& 0xF) (a >>> 4)) := rfl
theorem decodeRow_displayEnhancementA (a b : Byte) :
    decodeRow 0xB4 [a, b] =
      if a &&& 0xA0 == 0xA0 && b &&& 0x07 == 0x05 then some (.displayEnhancementA (a &&& 0x5F) (b >>> 3)) else none := rfl
theorem decodeRow_setSecondPrechargePeriod (p : Byte) :
    decodeRow 0xB6 [p] = if p &&& 0xF0 == 0 then some (.setSecondPrechargePeriod p) else none := rfl
theorem decodeRow_setGrayScaleTable (t : List Byte) :
    decodeRow 0xB8 t = (grayTable? t).map .setGrayScaleTable := rfl
theorem decodeRow_setPrechargeVoltage (v : Byte) :
    decodeRow 0xBB [v] = if v &&& 0xE0 == 0 then some (.setPrechargeVoltage v) else none := rfl
theorem decodeRow_setVcomh (v : Byte) :
    decodeRow 0xBE [v] = if v &&& 0xF8 == 0 then some (.setVcomh v) else none := rfl
theorem decodeRow_setContrastCurrent (v : Byte) : decodeRow 0xC1 [v] = some (.setContrastCurrent v) := rfl
theorem decodeRow_masterContrastCurrentControl (v : Byte) :
    decodeRow 0xC7 [v] = if v &&& 0xF0 == 0 then some (.masterContrastCurrentControl v) else none := rfl
theorem decodeRow_setMuxRatio (n : Byte) :
    decodeRow 0xCA [n] = if isField7 n then some (.setMuxRatio n) else none := rfl
theorem decodeRow_setCommandLock (a : Byte) :
    decodeRow 0xFD [a] = if a &&& 0xFB == 0x12 then some (.setCommandLock (a.getLsbD 2)) else none := rfl

/-- The table the decoder answers holds the bytes it read. -/
theorem grayTable?_toList {bytes : List Byte} {t : GrayTable} (h : grayTable? bytes = some t) : t.toList = bytes := by
  unfold grayTable? at h
  split at h
  · have := Option.some.inj h
    subst this
    rfl
  · simp at h

end Sys2Proof
end

