-- ==== Sys2Proof/Laws/State.lean ====
section
/-! SUPPORT. One lemma per field and state update, so that no later proof unfolds a record update. -/

namespace Sys2Proof.Machine

variable (s : State)

/-! ### `State.asked` -/

@[simp] theorem State.asked_pins : (s.asked).pins = s.pins := rfl
@[simp] theorem State.asked_seq : (s.asked).seq = s.seq := rfl
@[simp] theorem State.asked_session : (s.asked).session = s.session := rfl
@[simp] theorem State.asked_batchOpen : (s.asked).batchOpen = s.batchOpen := rfl
@[simp] theorem State.asked_fatal : (s.asked).fatal = s.fatal := rfl
@[simp] theorem State.asked_trace : (s.asked).trace = s.trace := rfl
@[simp] theorem State.asked_fb : (s.asked).fb = s.fb := rfl
@[simp] theorem State.asked_cfg : (s.asked).cfg = s.cfg := rfl
@[simp] theorem State.asked_result : (s.asked).result = s.result := rfl
@[simp] theorem State.asked_gpio : (s.asked).gpio = s.gpio.tail := rfl
@[simp] theorem State.asked_samples : (s.asked).samples = s.samples := rfl
@[simp] theorem State.asked_draws : (s.asked).draws = s.draws := rfl
@[simp] theorem State.asked_script : (s.asked).script = s.script := rfl

/-! ### `State.sampled` -/

@[simp] theorem State.sampled_pins : (s.sampled).pins = s.pins := rfl
@[simp] theorem State.sampled_seq : (s.sampled).seq = s.seq := rfl
@[simp] theorem State.sampled_session : (s.sampled).session = s.session := rfl
@[simp] theorem State.sampled_batchOpen : (s.sampled).batchOpen = s.batchOpen := rfl
@[simp] theorem State.sampled_fatal : (s.sampled).fatal = s.fatal := rfl
@[simp] theorem State.sampled_trace : (s.sampled).trace = s.trace := rfl
@[simp] theorem State.sampled_fb : (s.sampled).fb = s.fb := rfl
@[simp] theorem State.sampled_cfg : (s.sampled).cfg = s.cfg := rfl
@[simp] theorem State.sampled_result : (s.sampled).result = s.result := rfl
@[simp] theorem State.sampled_gpio : (s.sampled).gpio = s.gpio := rfl
@[simp] theorem State.sampled_samples : (s.sampled).samples = s.samples.tail := rfl
@[simp] theorem State.sampled_draws : (s.sampled).draws = if s.samples.isEmpty then s.draws + 1 else s.draws := rfl
@[simp] theorem State.sampled_script : (s.sampled).script = s.script := rfl

/-! ### `State.record` -/

@[simp] theorem State.record_pins (e : Event) : (s.record e).pins = s.pins.after e := rfl
@[simp] theorem State.record_seq (e : Event) : (s.record e).seq = s.seq.advance := rfl
@[simp] theorem State.record_session (e : Event) : (s.record e).session = s.session := rfl
@[simp] theorem State.record_batchOpen (e : Event) : (s.record e).batchOpen = s.batchOpen := rfl
@[simp] theorem State.record_fatal (e : Event) : (s.record e).fatal = s.fatal := rfl
@[simp] theorem State.record_trace (e : Event) : (s.record e).trace = s.trace ++ [e] := rfl
@[simp] theorem State.record_fb (e : Event) : (s.record e).fb = s.fb := rfl
@[simp] theorem State.record_cfg (e : Event) : (s.record e).cfg = s.cfg := rfl
@[simp] theorem State.record_result (e : Event) : (s.record e).result = s.result := rfl
@[simp] theorem State.record_gpio (e : Event) : (s.record e).gpio = s.gpio := rfl
@[simp] theorem State.record_samples (e : Event) : (s.record e).samples = s.samples := rfl
@[simp] theorem State.record_draws (e : Event) : (s.record e).draws = s.draws := rfl
@[simp] theorem State.record_script (e : Event) : (s.record e).script = s.script := rfl

/-! ### `State.start` -/

@[simp] theorem State.start_pins (op : Instr) : (s.start op).pins = s.pins := rfl
@[simp] theorem State.start_seq (op : Instr) : (s.start op).seq = .busy op 0 := rfl
@[simp] theorem State.start_session (op : Instr) : (s.start op).session = s.session := rfl
@[simp] theorem State.start_batchOpen (op : Instr) : (s.start op).batchOpen = s.batchOpen := rfl
@[simp] theorem State.start_fatal (op : Instr) : (s.start op).fatal = s.fatal := rfl
@[simp] theorem State.start_trace (op : Instr) : (s.start op).trace = s.trace := rfl
@[simp] theorem State.start_fb (op : Instr) : (s.start op).fb = s.fb := rfl
@[simp] theorem State.start_cfg (op : Instr) : (s.start op).cfg = s.cfg := rfl
@[simp] theorem State.start_result (op : Instr) : (s.start op).result = none := rfl
@[simp] theorem State.start_gpio (op : Instr) : (s.start op).gpio = s.gpio := rfl
@[simp] theorem State.start_samples (op : Instr) : (s.start op).samples = s.samples := rfl
@[simp] theorem State.start_draws (op : Instr) : (s.start op).draws = s.draws := rfl
@[simp] theorem State.start_script (op : Instr) : (s.start op).script = s.script := rfl

/-! ### `State.finish` -/

@[simp] theorem State.finish_pins (r : Result) : (s.finish r).pins = s.pins := rfl
@[simp] theorem State.finish_seq (r : Result) : (s.finish r).seq = .idle := rfl
@[simp] theorem State.finish_session (r : Result) : (s.finish r).session = s.session := rfl
@[simp] theorem State.finish_batchOpen (r : Result) : (s.finish r).batchOpen = s.batchOpen := rfl
@[simp] theorem State.finish_fatal (r : Result) : (s.finish r).fatal = s.fatal := rfl
@[simp] theorem State.finish_trace (r : Result) : (s.finish r).trace = s.trace := rfl
@[simp] theorem State.finish_fb (r : Result) : (s.finish r).fb = s.fb := rfl
@[simp] theorem State.finish_cfg (r : Result) : (s.finish r).cfg = s.cfg := rfl
@[simp] theorem State.finish_result (r : Result) : (s.finish r).result = some r := rfl
@[simp] theorem State.finish_gpio (r : Result) : (s.finish r).gpio = s.gpio := rfl
@[simp] theorem State.finish_samples (r : Result) : (s.finish r).samples = s.samples := rfl
@[simp] theorem State.finish_draws (r : Result) : (s.finish r).draws = s.draws := rfl
@[simp] theorem State.finish_script (r : Result) : (s.finish r).script = s.script := rfl

/-! ### `State.issue` -/

@[simp] theorem State.issue_pins (i : Instr) : (s.issue i).pins = s.pins := rfl
@[simp] theorem State.issue_seq (i : Instr) : (s.issue i).seq = s.seq := rfl
@[simp] theorem State.issue_session (i : Instr) : (s.issue i).session = s.session := rfl
@[simp] theorem State.issue_batchOpen (i : Instr) : (s.issue i).batchOpen = s.batchOpen := rfl
@[simp] theorem State.issue_fatal (i : Instr) : (s.issue i).fatal = s.fatal := rfl
@[simp] theorem State.issue_trace (i : Instr) : (s.issue i).trace = s.trace := rfl
@[simp] theorem State.issue_fb (i : Instr) : (s.issue i).fb = s.fb := rfl
@[simp] theorem State.issue_cfg (i : Instr) : (s.issue i).cfg = s.cfg := rfl
@[simp] theorem State.issue_result (i : Instr) : (s.issue i).result = s.result := rfl
@[simp] theorem State.issue_gpio (i : Instr) : (s.issue i).gpio = s.gpio := rfl
@[simp] theorem State.issue_samples (i : Instr) : (s.issue i).samples = s.samples := rfl
@[simp] theorem State.issue_draws (i : Instr) : (s.issue i).draws = s.draws := rfl
@[simp] theorem State.issue_script (i : Instr) : (s.issue i).script = .op i :: s.script := rfl

/-! ### `raisePinError` -/

@[simp] theorem raisePinError_pins (p : Prim) : (raisePinError p s).pins = Latches.unknown := rfl
@[simp] theorem raisePinError_seq (p : Prim) : (raisePinError p s).seq = .idle := rfl
@[simp] theorem raisePinError_session (p : Prim) : (raisePinError p s).session = .broken := rfl
@[simp] theorem raisePinError_batchOpen (p : Prim) : (raisePinError p s).batchOpen = false := rfl
@[simp] theorem raisePinError_fatal (p : Prim) : (raisePinError p s).fatal = s.fatal := rfl
@[simp] theorem raisePinError_trace (p : Prim) : (raisePinError p s).trace = s.trace ++ [.fail p] := rfl
@[simp] theorem raisePinError_fb (p : Prim) : (raisePinError p s).fb = s.fb := rfl
@[simp] theorem raisePinError_cfg (p : Prim) : (raisePinError p s).cfg = s.cfg := rfl
@[simp] theorem raisePinError_result (p : Prim) : (raisePinError p s).result = some .errPin := rfl
@[simp] theorem raisePinError_gpio (p : Prim) : (raisePinError p s).gpio = s.gpio := rfl
@[simp] theorem raisePinError_samples (p : Prim) : (raisePinError p s).samples = s.samples := rfl
@[simp] theorem raisePinError_draws (p : Prim) : (raisePinError p s).draws = s.draws := rfl
@[simp] theorem raisePinError_script (p : Prim) : (raisePinError p s).script = s.script := rfl

/-! ### `raiseFatal` -/

@[simp] theorem raiseFatal_pins (k : FatalKind) : (raiseFatal k s).pins = s.pins := rfl
@[simp] theorem raiseFatal_seq (k : FatalKind) : (raiseFatal k s).seq = s.seq := rfl
@[simp] theorem raiseFatal_session (k : FatalKind) : (raiseFatal k s).session = s.session := rfl
@[simp] theorem raiseFatal_batchOpen (k : FatalKind) : (raiseFatal k s).batchOpen = s.batchOpen := rfl
@[simp] theorem raiseFatal_fatal (k : FatalKind) : (raiseFatal k s).fatal = some k := rfl
@[simp] theorem raiseFatal_trace (k : FatalKind) : (raiseFatal k s).trace = s.trace := rfl
@[simp] theorem raiseFatal_fb (k : FatalKind) : (raiseFatal k s).fb = s.fb := rfl
@[simp] theorem raiseFatal_cfg (k : FatalKind) : (raiseFatal k s).cfg = s.cfg := rfl
@[simp] theorem raiseFatal_result (k : FatalKind) : (raiseFatal k s).result = s.result := rfl
@[simp] theorem raiseFatal_gpio (k : FatalKind) : (raiseFatal k s).gpio = s.gpio := rfl
@[simp] theorem raiseFatal_samples (k : FatalKind) : (raiseFatal k s).samples = s.samples := rfl
@[simp] theorem raiseFatal_draws (k : FatalKind) : (raiseFatal k s).draws = s.draws := rfl
@[simp] theorem raiseFatal_script (k : FatalKind) : (raiseFatal k s).script = s.script := rfl

/-! ### Resets -/

@[simp] theorem State.powerOn_pins : State.powerOn.pins = Latches.unknown := rfl
@[simp] theorem State.powerOn_seq : State.powerOn.seq = .idle := rfl
@[simp] theorem State.powerOn_session : State.powerOn.session = .unreset := rfl
@[simp] theorem State.powerOn_batchOpen : State.powerOn.batchOpen = false := rfl
@[simp] theorem State.powerOn_fatal : State.powerOn.fatal = none := rfl
@[simp] theorem State.powerOn_trace : State.powerOn.trace = [] := rfl
@[simp] theorem State.powerOn_fb : State.powerOn.fb = [] := rfl
@[simp] theorem State.powerOn_cfg : State.powerOn.cfg = Config.documented := rfl
@[simp] theorem State.powerOn_result : State.powerOn.result = none := rfl
@[simp] theorem State.powerOn_gpio : State.powerOn.gpio = [] := rfl
@[simp] theorem State.powerOn_samples : State.powerOn.samples = [] := rfl
@[simp] theorem State.powerOn_draws : State.powerOn.draws = 0 := rfl
@[simp] theorem State.powerOn_script : State.powerOn.script = [] := rfl
@[simp] theorem State.reset_seq : State.reset.seq = .idle := rfl
@[simp] theorem State.reset_session : State.reset.session = .ready := rfl
@[simp] theorem State.reset_batchOpen : State.reset.batchOpen = false := rfl
@[simp] theorem State.reset_fatal : State.reset.fatal = none := rfl
@[simp] theorem State.reset_fb : State.reset.fb = [] := rfl
@[simp] theorem State.reset_cfg : State.reset.cfg = Config.documented := rfl
@[simp] theorem State.reset_result : State.reset.result = some .ok := rfl
@[simp] theorem State.reset_gpio : State.reset.gpio = [] := rfl
@[simp] theorem State.reset_samples : State.reset.samples = [] := rfl
@[simp] theorem State.reset_draws : State.reset.draws = 0 := rfl
@[simp] theorem State.reset_script : State.reset.script = [] := rfl

end Sys2Proof.Machine
end

