-- ==== Sys2Proof/Laws/Ops.lean ====
section
/-! SUPPORT. What running an operation can do: it takes the effect of every step, or it is aborted at the
first step the GPIO capability fails. Both ends are given in closed form, so that a later proof cites these
lemmas and never unfolds `run`. -/

namespace Sys2Proof.Machine

/-! ## The two ends of a run -/

/-- The state after every step of a list has taken effect. -/
def effects : List Micro → State → State
  | [], s => s
  | .prim p :: rest, s => effects rest (p.effect s)
  | .setBatch b :: rest, s => effects rest { s with batchOpen := b }
  | .setReady :: rest, s => effects rest { s with session := .ready }

/-- How many fallible steps a list has. -/
def asks : List Micro → Nat
  | [] => 0
  | .prim p :: rest => (if p.fallible then 1 else 0) + asks rest
  | .setBatch _ :: rest => asks rest
  | .setReady :: rest => asks rest

/-- The events of a list of steps whose samples all return `v`. -/
def eventsWith (v : Byte) : List Micro → List Event
  | [] => []
  | .prim (.pin line level) :: rest => .pin line level :: eventsWith v rest
  | .prim (.dir d) :: rest => .dir d :: eventsWith v rest
  | .prim (.drive b) :: rest => .drive b :: eventsWith v rest
  | .prim .sample :: rest => .sample v :: eventsWith v rest
  | .prim (.delay n) :: rest => .delay n :: eventsWith v rest
  | .setBatch _ :: rest => eventsWith v rest
  | .setReady :: rest => eventsWith v rest

/-- A list of steps that samples nothing. -/
def noSample : List Micro → Bool
  | [] => true
  | .prim p :: rest => p != .sample && noSample rest
  | .setBatch _ :: rest => noSample rest
  | .setReady :: rest => noSample rest

/-- The batch flag a list of steps leaves. -/
def batchAfter : Bool → List Micro → Bool
  | b, [] => b
  | b, .prim _ :: rest => batchAfter b rest
  | _, .setBatch b :: rest => batchAfter b rest
  | b, .setReady :: rest => batchAfter b rest

/-- The session a list of steps leaves. -/
def sessionAfter : Session → List Micro → Session
  | s, [] => s
  | s, .prim _ :: rest => sessionAfter s rest
  | s, .setBatch _ :: rest => sessionAfter s rest
  | _, .setReady :: rest => sessionAfter .ready rest

@[simp] theorem effects_append (xs ys : List Micro) (s : State) :
    effects (xs ++ ys) s = effects ys (effects xs s) := by
  induction xs generalizing s with
  | nil => rfl
  | cons m rest ih => cases m <;> simp [effects, ih]

@[simp] theorem asks_append (xs ys : List Micro) : asks (xs ++ ys) = asks xs + asks ys := by
  induction xs with
  | nil => simp [asks]
  | cons m rest ih => cases m <;> simp [asks, ih, Nat.add_assoc]

@[simp] theorem eventsWith_append (v : Byte) (xs ys : List Micro) :
    eventsWith v (xs ++ ys) = eventsWith v xs ++ eventsWith v ys := by
  induction xs with
  | nil => rfl
  | cons m rest ih =>
    cases m with
    | prim p => cases p <;> simp [eventsWith, ih]
    | setBatch b => simp [eventsWith, ih]
    | setReady => simp [eventsWith, ih]

@[simp] theorem noSample_append (xs ys : List Micro) : noSample (xs ++ ys) = (noSample xs && noSample ys) := by
  induction xs with
  | nil => rfl
  | cons m rest ih => cases m <;> simp [noSample, ih, Bool.and_assoc]

@[simp] theorem batchAfter_append (b : Bool) (xs ys : List Micro) :
    batchAfter b (xs ++ ys) = batchAfter (batchAfter b xs) ys := by
  induction xs generalizing b with
  | nil => rfl
  | cons m rest ih => cases m <;> simp [batchAfter, ih]

@[simp] theorem sessionAfter_append (b : Session) (xs ys : List Micro) :
    sessionAfter b (xs ++ ys) = sessionAfter (sessionAfter b xs) ys := by
  induction xs generalizing b with
  | nil => rfl
  | cons m rest ih => cases m <;> simp [sessionAfter, ih]

/-! ## The effects, field by field -/

/-- What one step that takes effect leaves unchanged. -/
theorem effect_frame (p : Prim) (s : State) :
    (p.effect s).session = s.session ∧ (p.effect s).batchOpen = s.batchOpen ∧ (p.effect s).fatal = s.fatal ∧
    (p.effect s).fb = s.fb ∧ (p.effect s).cfg = s.cfg ∧ (p.effect s).result = s.result ∧
    (p.effect s).script = s.script ∧ (p.effect s).seq = s.seq.advance := by
  cases p <;> simp [Prim.effect]

theorem effects_frame (ms : List Micro) (s : State) :
    (effects ms s).fatal = s.fatal ∧ (effects ms s).fb = s.fb ∧ (effects ms s).cfg = s.cfg ∧
    (effects ms s).result = s.result ∧ (effects ms s).script = s.script := by
  induction ms generalizing s with
  | nil => simp [effects]
  | cons m rest ih =>
    cases m with
    | prim p =>
      obtain ⟨-, -, h1, h2, h3, h4, h5, -⟩ := effect_frame p s
      simp only [effects]
      have h := ih (p.effect s)
      rw [h1, h2, h3, h4, h5] at h
      exact h
    | setBatch b => exact ih { s with batchOpen := b }
    | setReady => exact ih { s with session := .ready }

@[simp] theorem effects_fatal (ms : List Micro) (s : State) : (effects ms s).fatal = s.fatal :=
  (effects_frame ms s).1
@[simp] theorem effects_fb (ms : List Micro) (s : State) : (effects ms s).fb = s.fb := (effects_frame ms s).2.1
@[simp] theorem effects_cfg (ms : List Micro) (s : State) : (effects ms s).cfg = s.cfg :=
  (effects_frame ms s).2.2.1
@[simp] theorem effects_result (ms : List Micro) (s : State) : (effects ms s).result = s.result :=
  (effects_frame ms s).2.2.2.1
@[simp] theorem effects_script (ms : List Micro) (s : State) : (effects ms s).script = s.script :=
  (effects_frame ms s).2.2.2.2

@[simp] theorem effects_batchOpen (ms : List Micro) (s : State) :
    (effects ms s).batchOpen = batchAfter s.batchOpen ms := by
  induction ms generalizing s with
  | nil => rfl
  | cons m rest ih =>
    cases m with
    | prim p => simp only [effects, batchAfter, ih, (effect_frame p s).2.1]
    | setBatch b => simp only [effects, batchAfter, ih]
    | setReady => simp only [effects, batchAfter, ih]

@[simp] theorem effects_session (ms : List Micro) (s : State) :
    (effects ms s).session = sessionAfter s.session ms := by
  induction ms generalizing s with
  | nil => rfl
  | cons m rest ih =>
    cases m with
    | prim p => simp only [effects, sessionAfter, ih, (effect_frame p s).1]
    | setBatch b => simp only [effects, sessionAfter, ih]
    | setReady => simp only [effects, sessionAfter, ih]

theorem effect_gpio (p : Prim) (s : State) :
    (p.effect s).gpio = s.gpio.drop (if p.fallible then 1 else 0) := by
  cases p <;> simp [Prim.effect, Prim.fallible]

@[simp] theorem effects_gpio (ms : List Micro) (s : State) : (effects ms s).gpio = s.gpio.drop (asks ms) := by
  induction ms generalizing s with
  | nil => simp [effects, asks]
  | cons m rest ih =>
    cases m with
    | prim p => simp [effects, asks, ih, effect_gpio, List.drop_drop]
    | setBatch b => simp [effects, asks, ih]
    | setReady => simp [effects, asks, ih]

/-- A list of steps that samples nothing draws nothing. -/
theorem effects_samples {ms : List Micro} (h : noSample ms = true) (s : State) :
    (effects ms s).samples = s.samples ∧ (effects ms s).draws = s.draws := by
  induction ms generalizing s with
  | nil => simp [effects]
  | cons m rest ih =>
    cases m with
    | prim p =>
      simp only [noSample, Bool.and_eq_true, bne_iff_ne, ne_eq] at h
      have := ih h.2 (p.effect s)
      cases p <;> simp_all [effects, Prim.effect]
    | setBatch b => exact ih h { s with batchOpen := b }
    | setReady => exact ih h { s with session := .ready }

/-- The latches after a list of steps do not depend on what its samples return. -/
theorem effects_pins (v : Byte) (ms : List Micro) (s : State) :
    (effects ms s).pins = (eventsWith v ms).foldl Latches.after s.pins := by
  induction ms generalizing s with
  | nil => rfl
  | cons m rest ih =>
    cases m with
    | prim p => cases p <;> simp [effects, eventsWith, ih, Prim.effect, Prim.event, Latches.after]
    | setBatch b => simp [effects, eventsWith, ih]
    | setReady => simp [effects, eventsWith, ih]

/-- The events a list of steps without a sample appends. -/
theorem effects_trace {ms : List Micro} (h : noSample ms = true) (v : Byte) (s : State) :
    (effects ms s).trace = s.trace ++ eventsWith v ms := by
  induction ms generalizing s with
  | nil => simp [effects, eventsWith]
  | cons m rest ih =>
    cases m with
    | prim p =>
      simp only [noSample, Bool.and_eq_true, bne_iff_ne, ne_eq] at h
      cases p <;> simp_all [effects, eventsWith, Prim.effect, Prim.event]
    | setBatch b => simp [effects, eventsWith, ih h]
    | setReady => simp [effects, eventsWith, ih h]

/-- The latches stay those that the trace leaves. -/
theorem effects_replay (ms : List Micro) (s : State) (h : latchesOf s.trace = s.pins) :
    latchesOf (effects ms s).trace = (effects ms s).pins := by
  induction ms generalizing s with
  | nil => exact h
  | cons m rest ih =>
    cases m with
    | prim p =>
      refine ih _ ?_
      unfold latchesOf at h ⊢
      cases p <;> simp [Prim.effect, h]
    | setBatch b => exact ih { s with batchOpen := b } h
    | setReady => exact ih { s with session := .ready } h

/-- The trace only grows. -/
theorem effects_trace_grows (ms : List Micro) (s : State) : ∃ es, (effects ms s).trace = s.trace ++ es := by
  induction ms generalizing s with
  | nil => exact ⟨[], by simp [effects]⟩
  | cons m rest ih =>
    cases m with
    | prim p =>
      obtain ⟨es, hes⟩ := ih (p.effect s)
      have : ∃ e, (p.effect s).trace = s.trace ++ [e] := by cases p <;> exact ⟨_, rfl⟩
      obtain ⟨e, he⟩ := this
      exact ⟨e :: es, by simp [effects, hes, he]⟩
    | setBatch b => exact ih { s with batchOpen := b }
    | setReady => exact ih { s with session := .ready }

/-! ## What a run can do -/

/-- A run takes every step's effect, or it was aborted at some step after the effects of those before it. -/
theorem run_cases (ms : List Micro) (s : State) :
    run ms s = .done (effects ms s) ∨
    ∃ before p after, ms = before ++ .prim p :: after ∧ p.fallible = true ∧
      run ms s = .aborted (raisePinError p (effects before s).asked) := by
  induction ms generalizing s with
  | nil => exact .inl rfl
  | cons m rest ih =>
    cases m with
    | prim p =>
      by_cases hf : (p.fallible && s.answer == .fail) = true
      · refine .inr ⟨[], p, rest, rfl, ?_, ?_⟩
        · simp only [Bool.and_eq_true] at hf; exact hf.1
        · simp [run, attempt, hf, effects]
      · have hrun : run (.prim p :: rest) s = run rest (p.effect s) := by simp [run, attempt, hf]
        rcases ih (p.effect s) with h | ⟨before, q, after, rfl, hq, h⟩
        · exact .inl (by rw [hrun, h]; rfl)
        · exact .inr ⟨.prim p :: before, q, after, rfl, hq, by rw [hrun, h]; rfl⟩
    | setBatch b =>
      rcases ih { s with batchOpen := b } with h | ⟨before, q, after, rfl, hq, h⟩
      · exact .inl h
      · exact .inr ⟨.setBatch b :: before, q, after, rfl, hq, h⟩
    | setReady =>
      rcases ih { s with session := .ready } with h | ⟨before, q, after, rfl, hq, h⟩
      · exact .inl h
      · exact .inr ⟨.setReady :: before, q, after, rfl, hq, h⟩

/-- The answer to the next fallible step, when the next ones are ok. -/
theorem answer_ok {s : State} {n : Nat} (h : s.pinsAnswerOk (n + 1)) : s.answer = .ok := by
  unfold State.answer
  by_cases hp : s.cfg.pinFail = true
  · rw [if_pos hp]
    cases hg : s.gpio with
    | nil => rfl
    | cons a rest => exact h hp a (by simp [hg])
  · rw [if_neg hp]

theorem pinsAnswerOk_effect {p : Prim} {s : State} {n : Nat}
    (h : s.pinsAnswerOk ((if p.fallible then 1 else 0) + n)) : (p.effect s).pinsAnswerOk n := by
  intro hp a ha
  rw [(effect_frame p s).2.2.2.2.1] at hp
  rw [effect_gpio] at ha
  refine h hp a ?_
  rw [List.take_drop] at ha
  exact List.mem_of_mem_drop ha

/-- With every answer ok, a run takes every step's effect. -/
theorem run_ok {ms : List Micro} {s : State} (h : s.pinsAnswerOk (asks ms)) : run ms s = .done (effects ms s) := by
  induction ms generalizing s with
  | nil => rfl
  | cons m rest ih =>
    cases m with
    | prim p =>
      have hstep : attempt p s = .done (p.effect s) := by
        unfold attempt
        by_cases hf : p.fallible = true
        · have : s.answer = .ok := by
            apply answer_ok (n := asks rest)
            simpa [asks, hf, Nat.add_comm] using h
          simp [this]
        · simp [hf]
      simp only [run, hstep, effects]
      exact ih (pinsAnswerOk_effect h)
    | setBatch b => exact ih (s := { s with batchOpen := b }) h
    | setReady => exact ih (s := { s with session := .ready }) h

/-- With a failing answer at the `n`-th fallible step, a run aborts there: the events before it, then
`Fail` of that step. -/
theorem run_fails {ms : List Micro} {s : State} {n : Nat} (v : Byte) (hs : noSample ms = true)
    (h : s.pinFailsAt n) (hn : n < asks ms) :
    run ms s = .aborted
      { s with
        pins := Latches.unknown
        session := .broken
        batchOpen := false
        seq := .idle
        result := some .errPin
        trace := s.trace ++ failAt n (eventsWith v ms)
        gpio := s.gpio.drop (n + 1) } := by
  induction ms generalizing s n with
  | nil => simp [asks] at hn
  | cons m rest ih =>
    cases m with
    | prim p =>
      simp only [noSample, Bool.and_eq_true, bne_iff_ne, ne_eq] at hs
      obtain ⟨hp, hok, hfail⟩ := h
      by_cases hf : p.fallible = true
      · cases n with
        | zero =>
          have hans : s.answer = .fail := by
            unfold State.answer
            rw [if_pos hp]
            cases hg : s.gpio with
            | nil => simp [hg] at hfail
            | cons a l => simpa [hg] using hfail
          have : attempt p s = .aborted (raisePinError p s.asked) := by simp [attempt, hf, hans]
          simp only [run, this]
          cases p <;> simp_all [raisePinError, State.asked, eventsWith, failAt, Prim.fallible]
        | succ n =>
          have hans : s.answer = .ok :=
            answer_ok (n := n) fun _ a ha => hok a ha
          have hstep : attempt p s = .done (p.effect s) := by simp [attempt, hans]
          have hg : (p.effect s).gpio = s.gpio.tail := by rw [effect_gpio]; simp [hf]
          have hcfg := (effect_frame p s).2.2.2.2.1
          have hrec := ih (s := p.effect s) (n := n) hs.2
            ⟨by rw [hcfg]; exact hp, by
              intro a ha
              rw [hg] at ha
              exact hok a (by cases hgl : s.gpio with
                | nil => simp [hgl] at ha
                | cons b l => rw [hgl] at ha; simp at ha; simp [ha]), by
              rw [hg]; simpa using hfail⟩
            (by simp only [asks, hf, if_true] at hn; omega)
          simp only [run, hstep, hrec]
          cases p <;> simp_all [Prim.effect, Prim.event, State.record, State.asked, eventsWith, failAt,
            Prim.fallible]
      · have hd : ∃ k, p = .delay k := by cases p <;> simp_all [Prim.fallible]
        obtain ⟨k, rfl⟩ := hd
        have hstep : attempt (.delay k) s = .done (Prim.effect (.delay k) s) := by
          simp [attempt, Prim.fallible]
        have hrec := ih (s := Prim.effect (.delay k) s) (n := n) hs.2 ⟨hp, hok, hfail⟩
          (by simpa [asks, Prim.fallible] using hn)
        simp only [run, hstep, hrec]
        simp [Prim.effect, Prim.event, State.record, eventsWith, failAt]
    | setBatch b => exact ih (s := { s with batchOpen := b }) hs h hn
    | setReady => exact ih (s := { s with session := .ready }) hs h hn

/-! ## What an operation can answer -/

/-- An admitted operation answers its completed state or an aborted one. -/
theorem complete_cases (op : Instr) (ms : List Micro) (r : Result) (s : State) :
    complete op ms r s = .next ((effects ms (s.start op)).finish r) ∨
    ∃ before p after, ms = before ++ .prim p :: after ∧ p.fallible = true ∧
      complete op ms r s = .next (raisePinError p (effects before (s.start op)).asked) := by
  rcases run_cases ms (s.start op) with h | ⟨before, p, after, hms, hp, h⟩
  · exact .inl (by simp [complete, h])
  · exact .inr ⟨before, p, after, hms, hp, by simp [complete, h]⟩

/-- With every answer ok, an operation without a sample leaves its events and returns its result. -/
theorem complete_ok {op : Instr} {ms : List Micro} {r : Result} {s : State} (v : Byte)
    (hs : noSample ms = true) (h : s.pinsAnswerOk (asks ms)) :
    complete op ms r s = .next
      { s with
        pins := (eventsWith v ms).foldl Latches.after s.pins
        session := sessionAfter s.session ms
        batchOpen := batchAfter s.batchOpen ms
        trace := s.trace ++ eventsWith v ms
        gpio := s.gpio.drop (asks ms)
        seq := .idle
        result := some r } := by
  have hrun : run ms (s.start op) = .done (effects ms (s.start op)) := run_ok h
  obtain ⟨hsam, hdr⟩ := effects_samples hs (s.start op)
  simp only [complete, hrun, Host.Outcome.next.injEq]
  unfold State.finish
  simp [effects_pins v, effects_trace hs v, hsam, hdr]

/-- With a failing answer at the `n`-th fallible step, an operation without a sample is aborted there. -/
theorem complete_fails {op : Instr} {ms : List Micro} {r : Result} {s : State} {n : Nat} (v : Byte)
    (hs : noSample ms = true) (h : s.pinFailsAt n) (hn : n < asks ms) :
    complete op ms r s = .next (s.abortedAt n (eventsWith v ms)) := by
  have hrun := run_fails (s := s.start op) v hs h hn
  simp only [complete, hrun]
  simp [State.abortedAt]

/-- A run does not depend on the sequencer position, which only follows it. -/
theorem run_seq (ms : List Micro) (s : State) (q q' : Seq) :
    (∀ t, run ms { s with seq := q } = .done t → ∃ q2, run ms { s with seq := q' } = .done { t with seq := q2 }) ∧
    (∀ t, run ms { s with seq := q } = .aborted t → run ms { s with seq := q' } = .aborted t) := by
  induction ms generalizing s q q' with
  | nil =>
    refine ⟨fun t h => ⟨q', ?_⟩, fun t h => by simp [run] at h⟩
    simp only [run, Flow.done.injEq] at h
    simp [run, ← h]
  | cons m rest ih =>
    cases m with
    | prim p =>
      by_cases hf : (p.fallible && s.answer == .fail) = true
      · have h1 : ∀ q, attempt p { s with seq := q } = .aborted (raisePinError p s.asked) := by
          intro q
          have : State.answer { s with seq := q } = s.answer := rfl
          simp only [attempt, this, hf, if_true]
          simp [raisePinError, State.asked]
        constructor <;> intro t h <;> simp only [run, h1] at h ⊢
        · exact absurd h (by simp)
        · exact h
      · have h1 : ∀ q, attempt p { s with seq := q } = .done { (p.effect s) with seq := q.advance } := by
          intro q
          have : State.answer { s with seq := q } = s.answer := rfl
          simp only [attempt, this, hf]
          cases p <;> simp [Prim.effect, State.record, State.asked, State.sampled, Prim.event, State.sampleByte]
        simp only [run, h1]
        exact ih _ _ _
    | setBatch b => exact ih { s with batchOpen := b } q q'
    | setReady => exact ih { s with session := .ready } q q'

/-- What an operation answers depends on its steps and its result, not on the name it was issued under. -/
theorem complete_name (op op' : Instr) (ms : List Micro) (r : Result) (s : State) :
    complete op ms r s = complete op' ms r s := by
  have hrun := run_seq ms { s with result := none } (.busy op 0) (.busy op' 0)
  simp only [complete, State.start]
  cases h : run ms { s with seq := .busy op 0, result := none } with
  | done t =>
    obtain ⟨q2, h2⟩ := hrun.1 t h
    simp only [h2]
    rfl
  | aborted t => simp only [hrun.2 t h]

/-! ## Admission -/

@[simp] theorem admitted_none (go : Answer) : admitted none go = go := rfl
@[simp] theorem admitted_some (r : Refusal) (go : Answer) : admitted (some r) go = .refused r := rfl

theorem refuseHalted_none {s : State} (h : s.fatal = none) : refuseHalted s = none := by
  simp [refuseHalted, h]

theorem refuseSingle_none {s : State} (h : s.accepts) : refuseSingle s = none := by
  obtain ⟨hf, hs, hb⟩ := h
  simp [refuseSingle, refuseSession, refuseHalted, hf, hs, hb]

theorem refuseBatch_none {s : State} (h : s.inBatch) : refuseBatch s = none := by
  obtain ⟨hf, hs, hb⟩ := h
  simp [refuseBatch, refuseSession, refuseHalted, hf, hs, hb]

theorem fatal_of_refuseHalted {s : State} (h : refuseHalted s = none) : s.fatal = none := by
  cases hf : s.fatal with
  | none => rfl
  | some k => simp [refuseHalted, hf] at h

theorem accepts_of_refuseSingle {s : State} (h : refuseSingle s = none) : s.accepts := by
  unfold refuseSingle refuseSession at h
  cases hh : refuseHalted s with
  | some r => simp [hh] at h
  | none =>
    rw [hh] at h
    by_cases hr : s.session = .ready <;> by_cases hb : s.batchOpen = true <;> simp [hr, hb] at h
    exact ⟨fatal_of_refuseHalted hh, hr, by simpa using hb⟩

theorem inBatch_of_refuseBatch {s : State} (h : refuseBatch s = none) : s.inBatch := by
  unfold refuseBatch refuseSession at h
  cases hh : refuseHalted s with
  | some r => simp [hh] at h
  | none =>
    rw [hh] at h
    by_cases hr : s.session = .ready <;> by_cases hb : s.batchOpen = true <;> simp [hr, hb] at h
    exact ⟨fatal_of_refuseHalted hh, hr, hb⟩

end Sys2Proof.Machine
end

