-- ==== Sys2Proof/Laws/Steps.lean ====
section
/-! SUPPORT. The step list of each operation, once: how many fallible steps it has, which events it leaves, and
that it keeps or sets the control state. -/

namespace Sys2Proof.Machine

variable (v : Byte) (cfg : Config) (b0 : Bool) (s0 : Session)

/-! ## Bus transactor -/

@[simp] theorem asks_resetSteps : asks (resetSteps cfg) = 8 := rfl
@[simp] theorem noSample_resetSteps : noSample (resetSteps cfg) = true := rfl
@[simp] theorem eventsWith_resetSteps : eventsWith v (resetSteps cfg) = resetEvents cfg.delays := rfl
@[simp] theorem batchAfter_resetSteps : batchAfter b0 (resetSteps cfg) = false := rfl
@[simp] theorem sessionAfter_resetSteps : sessionAfter s0 (resetSteps cfg) = .ready := rfl

@[simp] theorem asks_writeSteps (type : TxType) (b : Byte) : asks (writeSteps cfg type b) = 7 := rfl
@[simp] theorem noSample_writeSteps (type : TxType) (b : Byte) : noSample (writeSteps cfg type b) = true := rfl
@[simp] theorem eventsWith_writeSteps (type : TxType) (b : Byte) :
    eventsWith v (writeSteps cfg type b) = writeEvents cfg.delays type b := by cases type <;> rfl
@[simp] theorem batchAfter_writeSteps (type : TxType) (b : Byte) : batchAfter b0 (writeSteps cfg type b) = b0 := rfl
@[simp] theorem sessionAfter_writeSteps (type : TxType) (b : Byte) :
    sessionAfter s0 (writeSteps cfg type b) = s0 := rfl

@[simp] theorem asks_beginSteps : asks (beginSteps cfg) = 2 := rfl
@[simp] theorem noSample_beginSteps : noSample (beginSteps cfg) = true := rfl
@[simp] theorem eventsWith_beginSteps : eventsWith v (beginSteps cfg) = beginEvents cfg.delays := rfl
@[simp] theorem batchAfter_beginSteps : batchAfter b0 (beginSteps cfg) = true := rfl
@[simp] theorem sessionAfter_beginSteps : sessionAfter s0 (beginSteps cfg) = s0 := rfl

@[simp] theorem asks_byteSteps (b : Byte) : asks (byteSteps cfg b) = 3 := rfl
@[simp] theorem noSample_byteSteps (b : Byte) : noSample (byteSteps cfg b) = true := rfl
@[simp] theorem eventsWith_byteSteps (b : Byte) : eventsWith v (byteSteps cfg b) = byteEvents cfg.delays b := rfl
@[simp] theorem batchAfter_byteSteps (b : Byte) : batchAfter b0 (byteSteps cfg b) = b0 := rfl
@[simp] theorem sessionAfter_byteSteps (b : Byte) : sessionAfter s0 (byteSteps cfg b) = s0 := rfl

@[simp] theorem asks_endSteps : asks endSteps = 1 := rfl
@[simp] theorem noSample_endSteps : noSample endSteps = true := rfl
@[simp] theorem eventsWith_endSteps : eventsWith v endSteps = [.pin .cs .high] := rfl
@[simp] theorem batchAfter_endSteps : batchAfter b0 endSteps = false := rfl
@[simp] theorem sessionAfter_endSteps : sessionAfter s0 endSteps = s0 := rfl

@[simp] theorem asks_readSteps (type : TxType) : asks (readSteps cfg type) = 7 := rfl
@[simp] theorem eventsWith_readSteps (type : TxType) :
    eventsWith v (readSteps cfg type) = readEvents cfg.delays type v := by cases type <;> rfl
@[simp] theorem batchAfter_readSteps (type : TxType) : batchAfter b0 (readSteps cfg type) = b0 := rfl
@[simp] theorem sessionAfter_readSteps (type : TxType) : sessionAfter s0 (readSteps cfg type) = s0 := rfl

/-! ## Command encoder -/

theorem asks_dataWrites (args : List Byte) : asks (args.flatMap (writeSteps cfg .data)) = 7 * args.length := by
  induction args with
  | nil => rfl
  | cons a rest ih => simp [ih]; omega

theorem noSample_dataWrites (args : List Byte) : noSample (args.flatMap (writeSteps cfg .data)) = true := by
  induction args with
  | nil => rfl
  | cons a rest ih => simp [ih]

theorem eventsWith_dataWrites (args : List Byte) :
    eventsWith v (args.flatMap (writeSteps cfg .data)) = args.flatMap (writeEvents cfg.delays .data) := by
  induction args with
  | nil => rfl
  | cons a rest ih => simp [ih]

theorem batchAfter_dataWrites (args : List Byte) :
    batchAfter b0 (args.flatMap (writeSteps cfg .data)) = b0 := by
  induction args with
  | nil => rfl
  | cons a rest ih => simp [ih]

theorem sessionAfter_dataWrites (args : List Byte) :
    sessionAfter s0 (args.flatMap (writeSteps cfg .data)) = s0 := by
  induction args with
  | nil => rfl
  | cons a rest ih => simp [ih]

@[simp] theorem asks_rawSteps (o : Byte) (args : List Byte) : asks (rawSteps cfg o args) = 7 * (1 + args.length) := by
  simp [rawSteps, asks_dataWrites]; omega
@[simp] theorem noSample_rawSteps (o : Byte) (args : List Byte) : noSample (rawSteps cfg o args) = true := by
  simp [rawSteps, noSample_dataWrites]
@[simp] theorem eventsWith_rawSteps (o : Byte) (args : List Byte) :
    eventsWith v (rawSteps cfg o args) = frameEvents cfg.delays o args := by
  simp [rawSteps, frameEvents, eventsWith_dataWrites]
@[simp] theorem batchAfter_rawSteps (o : Byte) (args : List Byte) : batchAfter b0 (rawSteps cfg o args) = b0 := by
  simp [rawSteps, batchAfter_dataWrites]
@[simp] theorem sessionAfter_rawSteps (o : Byte) (args : List Byte) : sessionAfter s0 (rawSteps cfg o args) = s0 := by
  simp [rawSteps, sessionAfter_dataWrites]

/-- The steps of a command are those of its raw command (R181). -/
theorem commandSteps_eq (c : Command) : commandSteps cfg c = rawSteps cfg (c.opcode cfg) c.args := rfl

/-! ## Refresh engine -/

theorem asks_batchBytes (bytes : List Byte) : asks (bytes.flatMap (byteSteps cfg)) = 3 * bytes.length := by
  induction bytes with
  | nil => rfl
  | cons a rest ih => simp [ih]; omega

theorem noSample_batchBytes (bytes : List Byte) : noSample (bytes.flatMap (byteSteps cfg)) = true := by
  induction bytes with
  | nil => rfl
  | cons a rest ih => simp [ih]

theorem eventsWith_batchBytes (bytes : List Byte) :
    eventsWith v (bytes.flatMap (byteSteps cfg)) = bytes.flatMap (byteEvents cfg.delays) := by
  induction bytes with
  | nil => rfl
  | cons a rest ih => simp [ih]

theorem batchAfter_batchBytes (bytes : List Byte) : batchAfter b0 (bytes.flatMap (byteSteps cfg)) = b0 := by
  induction bytes with
  | nil => rfl
  | cons a rest ih => simp [ih]

theorem sessionAfter_batchBytes (bytes : List Byte) : sessionAfter s0 (bytes.flatMap (byteSteps cfg)) = s0 := by
  induction bytes with
  | nil => rfl
  | cons a rest ih => simp [ih]

variable (fb : Memory) (a : Rect)

@[simp] theorem asks_refreshSteps :
    asks (refreshSteps cfg fb a) = 52 + 3 * (streamBytes cfg fb a).length := by
  simp [refreshSteps, commandSteps_eq, Command.args, asks_batchBytes]; omega
@[simp] theorem noSample_refreshSteps : noSample (refreshSteps cfg fb a) = true := by
  simp [refreshSteps, commandSteps_eq, noSample_batchBytes]
@[simp] theorem eventsWith_refreshSteps :
    eventsWith v (refreshSteps cfg fb a) = refreshEvents cfg a (streamBytes cfg fb a) := by
  simp [refreshSteps, commandSteps_eq, eventsWith_batchBytes, refreshEvents, batchEvents, Command.opcode,
    Command.args, windowField, colStartOf, colEndOf, rowStartOf, rowEndOf, List.append_assoc]
@[simp] theorem batchAfter_refreshSteps : batchAfter b0 (refreshSteps cfg fb a) = false := by
  simp [refreshSteps]
@[simp] theorem sessionAfter_refreshSteps : sessionAfter s0 (refreshSteps cfg fb a) = s0 := by
  simp [refreshSteps, commandSteps_eq, sessionAfter_batchBytes]

/-! ## The latches the events leave -/

@[simp] theorem after_writeEvents (d : DelayCounts) (type : TxType) (b : Byte) (l : Latches) :
    (writeEvents d type b).foldl Latches.after l =
      { l with dir := some .output, dout := some b, dc := some (dcLevel type), cs := some .high, wr := some .high } := by
  cases type <;> rfl

@[simp] theorem after_resetEvents (d : DelayCounts) (l : Latches) :
    (resetEvents d).foldl Latches.after l =
      { l with res := some .high, cs := some .low, wr := some .high, rd := some .high, dir := some .output } := rfl

@[simp] theorem after_beginEvents (d : DelayCounts) (l : Latches) :
    (beginEvents d).foldl Latches.after l = { l with dc := some .high, cs := some .low } := rfl

@[simp] theorem after_byteEvents (d : DelayCounts) (b : Byte) (l : Latches) :
    (byteEvents d b).foldl Latches.after l = { l with dout := some b, wr := some .high } := rfl

@[simp] theorem after_readEvents (d : DelayCounts) (type : TxType) (l : Latches) :
    (readEvents d type v).foldl Latches.after l =
      { l with dir := some .input, dc := some (dcLevel type), cs := some .high, rd := some .high } := by
  cases type <;> rfl

theorem after_dataWrites (d : DelayCounts) (args : List Byte) (o : Byte) (t : TxType) (l : Latches) :
    (args.flatMap (writeEvents d .data)).foldl Latches.after
      { l with dir := some .output, dout := some o, dc := some (dcLevel t), cs := some .high, wr := some .high } =
      { l with
        dir := some .output
        dout := some (args.getLastD o)
        dc := some (if args = [] then dcLevel t else .high)
        cs := some .high
        wr := some .high } := by
  induction args generalizing o t with
  | nil => rfl
  | cons a rest ih =>
    rw [List.flatMap_cons, List.foldl_append, after_writeEvents]
    simp only [ih a .data]
    cases rest with
    | nil => simp [dcLevel]
    | cons c cs => simp [List.getLast?_eq_getLast_of_ne_nil]

@[simp] theorem after_frameEvents (d : DelayCounts) (o : Byte) (args : List Byte) (l : Latches) :
    (frameEvents d o args).foldl Latches.after l =
      { l with
        dir := some .output
        dout := some (args.getLastD o)
        dc := some (if args = [] then .low else .high)
        cs := some .high
        wr := some .high } := by
  rw [frameEvents, List.foldl_append, after_writeEvents, after_dataWrites]
  simp [dcLevel]

theorem after_batchBytes (d : DelayCounts) (bytes : List Byte) (l : Latches) (hw : l.wr = some .high) :
    (bytes.flatMap (byteEvents d)).foldl Latches.after l =
      { l with dout := match bytes.getLast? with | some b => some b | none => l.dout } := by
  induction bytes generalizing l with
  | nil => rfl
  | cons b rest ih =>
    rw [List.flatMap_cons, List.foldl_append, after_byteEvents, ih _ rfl]
    cases rest with
    | nil => simp [← hw]
    | cons c cs =>
      rw [List.getLast?_cons_cons]
      cases hl : (c :: cs).getLast? with
      | none => simp at hl
      | some x => simp [← hw]

theorem after_refreshEvents (bytes : List Byte) (l : Latches) (hb : bytes ≠ []) :
    (refreshEvents cfg a bytes).foldl Latches.after l =
      { l with
        dir := some .output, dc := some .high, cs := some .high, wr := some .high, dout := bytes.getLast? } := by
  obtain ⟨x, hx⟩ := Option.ne_none_iff_exists'.mp (by simpa using hb : bytes.getLast? ≠ none)
  simp [refreshEvents, batchEvents, List.foldl_append, after_batchBytes, hx, Latches.after]

end Sys2Proof.Machine
end

