-- ==== Sys2Proof/Laws/Exec.lean ====
section
/-! SUPPORT. What `exec` can do, said once: an operation is refused, halts the block, or runs its steps. Every
whole-machine property is a case of `exec_eq`. -/

namespace Sys2Proof.Machine

/-- A first refusal, else a second one. -/
def orElseRefuse (first second : Option Refusal) : Option Refusal :=
  match first with
  | some r => some r
  | none => second

/-- The refusal of an operation, if it is refused (R261, R272). -/
def refusalOf (s : State) : Instr → Option Refusal
  | .reset => refuseHalted s
  | .multiWriteByte _ => refuseBatch s
  | .multiWriteEnd => refuseBatch s
  | .bestFitX r n => orElseRefuse (refuseHalted s) (if n ≤ 0 then none else if isEmptyRect r then some .emptyRect else none)
  | .refresh d => orElseRefuse (refuseSingle s) (if isEmptyRect d then some .emptyRect else none)
  | .write _ _ => refuseSingle s
  | .multiWriteBegin => refuseSingle s
  | .read _ => refuseSingle s
  | .rawCommand _ _ => refuseSingle s
  | i => orElseRefuse (refuseSingle s) ((i.toCommand).bind refuseOperand)

/-- The fatal fault of an admitted operation, if it meets one. -/
def fatalOf (s : State) : Instr → Option FatalKind
  | .bestFitX _ n => if n ≤ 0 then some .contract else none
  | .refresh d => if rectInBuffer s.cfg (alignX d minSpan) then none else some .bounds
  | _ => none

/-- The steps of an operation. -/
def stepsOf (cfg : Config) (fb : Memory) : Instr → List Micro
  | .reset => resetSteps cfg
  | .write type b => writeSteps cfg type b
  | .multiWriteBegin => beginSteps cfg
  | .multiWriteByte b => byteSteps cfg b
  | .multiWriteEnd => endSteps
  | .read type => readSteps cfg type
  | .rawCommand o args => rawSteps cfg o args
  | .bestFitX _ _ => []
  | .refresh d => refreshSteps cfg fb (alignX d minSpan)
  | i => match i.toCommand with
    | some c => rawSteps cfg (c.opcode cfg) c.args
    | none => []

/-- The result of an operation that returns without error. -/
def resultOf (s : State) : Instr → Result
  | .read _ => .okByte s.sampleByte
  | .bestFitX r n => .okRect (alignX r n)
  | _ => .ok

/-- An operation is refused, halts the block, or runs its steps. -/
theorem exec_eq (i : Instr) (s : State) :
    exec i s = match refusalOf s i with
      | some r => .refused r
      | none => match fatalOf s i with
        | some k => halt i k s
        | none => complete i (stepsOf s.cfg s.fb i) (resultOf s i) s := by
  cases i with
  | reset => simp only [exec, execReset, refusalOf, fatalOf, stepsOf, resultOf]; cases refuseHalted s <;> rfl
  | multiWriteByte b =>
    simp only [exec, execMultiWriteByte, refusalOf, fatalOf, stepsOf, resultOf]; cases refuseBatch s <;> rfl
  | multiWriteEnd =>
    simp only [exec, execMultiWriteEnd, refusalOf, fatalOf, stepsOf, resultOf]; cases refuseBatch s <;> rfl
  | bestFitX r n =>
    simp only [exec, execBestFitX, refusalOf, fatalOf, stepsOf, resultOf]
    cases refuseHalted s with
    | some x => rfl
    | none =>
      by_cases hn : n ≤ 0
      · simp [hn, orElseRefuse]
      · cases he : isEmptyRect r <;> simp [hn, orElseRefuse]
  | refresh d =>
    simp only [exec, execRefresh, refusalOf, fatalOf, stepsOf, resultOf]
    cases refuseSingle s with
    | some x => rfl
    | none =>
      cases he : isEmptyRect d
      · cases hb : rectInBuffer s.cfg (alignX d minSpan) <;> simp [orElseRefuse]
      · simp [orElseRefuse]
  | write type b =>
    simp only [exec, execWrite, refusalOf, fatalOf, stepsOf, resultOf]; cases refuseSingle s <;> rfl
  | multiWriteBegin =>
    simp only [exec, execMultiWriteBegin, refusalOf, fatalOf, stepsOf, resultOf]; cases refuseSingle s <;> rfl
  | read type =>
    simp only [exec, execRead, refusalOf, fatalOf, stepsOf, resultOf]; cases refuseSingle s <;> rfl
  | rawCommand o args =>
    simp only [exec, execRawCommand, refusalOf, fatalOf, stepsOf, resultOf]; cases refuseSingle s <;> rfl
  | command c =>
    simp only [exec, execCommand, issueCommand, refusalOf, fatalOf, stepsOf, resultOf, Instr.toCommand,
      Option.bind_some]
    cases refuseSingle s <;> cases refuseOperand c <;> rfl
  | setMode mode =>
    simp only [exec, execSetMode, issueCommand, refusalOf, fatalOf, stepsOf, resultOf, Instr.toCommand,
      Option.bind_some]
    cases refuseSingle s <;> cases refuseOperand (.setMode mode) <;> rfl
  | _ =>
    simp only [exec, execSetCommandLock, execSetDisplayOn, execSetClockDivAndOscFreq, execSetMuxRatio,
      execSetStartLine, execSetOffset, execSetRemapMode, execVddFunctionSelect, execDisplayEnhancementA,
      execSetContrastCurrent, execMasterContrastCurrentControl, execSetPhaseLength, execSetPrechargeVoltage,
      execSetVcomh, execSetColumnAddress, execSetRowAddress, execWriteRam, execReadRam,
      execEnablePartialDisplay, execExitPartialDisplay, execSetGpio, execSetSecondPrechargePeriod,
      execSetGrayScaleTable, execSetDefaultGrayScaleTable, execEnableGrayScaleTable,
      issueCommand, refusalOf, fatalOf, stepsOf, resultOf, Instr.toCommand, Option.bind_some, refuseOperand]
    cases refuseSingle s <;> rfl

/-- An operation that is not refused found no fatal fault. -/
theorem fatal_none_of_refusalOf {s : State} {i : Instr} (h : refusalOf s i = none) : s.fatal = none := by
  have hs : refuseSingle s = none → s.fatal = none := fun h => (accepts_of_refuseSingle h).1
  have ho : ∀ x, orElseRefuse (refuseSingle s) x = none → s.fatal = none := by
    intro x hx
    cases hr : refuseSingle s with
    | none => exact hs hr
    | some r => simp [orElseRefuse, hr] at hx
  cases i with
  | reset => exact fatal_of_refuseHalted h
  | multiWriteByte b => exact (inBatch_of_refuseBatch h).1
  | multiWriteEnd => exact (inBatch_of_refuseBatch h).1
  | bestFitX r n =>
    cases hr : refuseHalted s with
    | none => exact fatal_of_refuseHalted hr
    | some x => simp [refusalOf, orElseRefuse, hr] at h
  | write _ _ => exact hs h
  | multiWriteBegin => exact hs h
  | read _ => exact hs h
  | rawCommand _ _ => exact hs h
  | _ => exact ho _ h

/-- What an operation that answers a next state did: it completed, it was aborted at a step, or it halted the
block. -/
theorem exec_next {i : Instr} {s t : State} (h : exec i s = .next t) :
    s.fatal = none ∧ refusalOf s i = none ∧
    ((fatalOf s i = none ∧ t = (effects (stepsOf s.cfg s.fb i) (s.start i)).finish (resultOf s i)) ∨
     (fatalOf s i = none ∧ ∃ before p after, stepsOf s.cfg s.fb i = before ++ .prim p :: after ∧
        p.fallible = true ∧ t = raisePinError p (effects before (s.start i)).asked) ∨
     (∃ k, fatalOf s i = some k ∧ t = raiseFatal k (s.start i))) := by
  rw [exec_eq] at h
  cases hr : refusalOf s i with
  | some r => simp [hr] at h
  | none =>
    refine ⟨fatal_none_of_refusalOf hr, rfl, ?_⟩
    cases hf : fatalOf s i with
    | some k =>
      simp only [hr, hf, halt, Host.Outcome.next.injEq] at h
      exact .inr (.inr ⟨k, rfl, h.symm⟩)
    | none =>
      simp only [hr, hf] at h
      rcases complete_cases i (stepsOf s.cfg s.fb i) (resultOf s i) s with hc | ⟨before, p, after, h1, h2, hc⟩
      · rw [hc] at h
        exact .inl ⟨rfl, (Host.Outcome.next.inj h).symm⟩
      · rw [hc] at h
        exact .inr (.inl ⟨rfl, before, p, after, h1, h2, (Host.Outcome.next.inj h).symm⟩)

/-- An admitted operation that meets no fatal fault runs its steps. -/
theorem exec_of_admitted {i : Instr} {s : State} (hr : refusalOf s i = none) (hf : fatalOf s i = none) :
    exec i s = complete i (stepsOf s.cfg s.fb i) (resultOf s i) s := by
  simp [exec_eq, hr, hf]

end Sys2Proof.Machine
end

