-- ==== Sys2Proof/Laws/Memory.lean ====
section
/-! SUPPORT. The pixel buffer: reads after writes, and the canonical form that every memory operation keeps. -/

namespace Sys2Proof.Machine

theorem memRead_of_lt {lo : Nat} {m : Memory} {k : Nat} (h : Memory.wfFrom lo m = true) (hk : k < lo) :
    memRead m k = unlistedByte := by
  induction m generalizing lo with
  | nil => rfl
  | cons c rest ih =>
    obtain ⟨a, b⟩ := c
    simp only [Memory.wfFrom, Bool.and_eq_true, decide_eq_true_eq] at h
    obtain ⟨hlo, -, hrest⟩ := h
    have : a ≠ k := by omega
    simp [memRead, this, ih hrest (by omega)]

theorem wfFrom_mono {lo lo' : Nat} {m : Memory} (h : Memory.wfFrom lo m = true) (hle : lo' ≤ lo) :
    Memory.wfFrom lo' m = true := by
  cases m with
  | nil => rfl
  | cons c rest =>
    obtain ⟨a, b⟩ := c
    simp only [Memory.wfFrom, Bool.and_eq_true, decide_eq_true_eq] at h ⊢
    exact ⟨by omega, h.2⟩

theorem wfFrom_memWrite {lo : Nat} {m : Memory} {k : Nat} {v : Byte} (h : Memory.wfFrom lo m = true)
    (hk : lo ≤ k) : Memory.wfFrom lo (memWrite m k v) = true := by
  induction m generalizing lo with
  | nil =>
    unfold memWrite
    split
    · rfl
    · simp [Memory.wfFrom, *]
  | cons c rest ih =>
    obtain ⟨a, b⟩ := c
    have h' := h
    simp only [Memory.wfFrom, Bool.and_eq_true, decide_eq_true_eq, bne_iff_ne, ne_eq] at h'
    obtain ⟨hlo, hb, hrest⟩ := h'
    unfold memWrite
    split
    · split
      · exact h
      · simp_all [Memory.wfFrom]
    · split
      · split
        · exact wfFrom_mono hrest (by omega)
        · simp_all [Memory.wfFrom]
      · simp only [Memory.wfFrom, Bool.and_eq_true, decide_eq_true_eq, bne_iff_ne, ne_eq]
        exact ⟨hlo, hb, ih hrest (by omega)⟩

/-- A write keeps the canonical form. -/
theorem wf_memWrite {m : Memory} (h : m.wf = true) (k : Nat) (v : Byte) : (memWrite m k v).wf = true :=
  wfFrom_memWrite h (Nat.zero_le k)

theorem memRead_memWrite_from {lo : Nat} {m : Memory} {k : Nat} {v : Byte}
    (h : Memory.wfFrom lo m = true) (j : Nat) :
    memRead (memWrite m k v) j = if j = k then v else memRead m j := by
  induction m generalizing lo with
  | nil =>
    by_cases hv : v = unlistedByte
    · by_cases hj : j = k <;> simp [memWrite, memRead, hv, hj]
    · by_cases hj : j = k
      · simp [memWrite, memRead, hv, hj]
      · simp [memWrite, memRead, hv, hj, Ne.symm hj]
  | cons c rest ih =>
    obtain ⟨a, b⟩ := c
    simp only [Memory.wfFrom, Bool.and_eq_true, decide_eq_true_eq, bne_iff_ne, ne_eq] at h
    obtain ⟨-, -, hrest⟩ := h
    unfold memWrite
    split
    · next hka =>
      have hk : memRead ((a, b) :: rest) k = unlistedByte := by
        have : a ≠ k := by omega
        simp [memRead, this, memRead_of_lt hrest (by omega : k < a + 1)]
      split
      · next hv =>
        by_cases hj : j = k
        · subst hj; simp [hk, hv]
        · simp [hj]
      · by_cases hj : j = k
        · subst hj; simp [memRead]
        · simp [memRead, hj, Ne.symm hj]
    · split
      · next hka =>
        subst hka
        split
        · next hv =>
          by_cases hj : j = k
          · subst hj; simp [hv, memRead_of_lt hrest (by omega : j < j + 1)]
          · simp [memRead, hj, Ne.symm hj]
        · by_cases hj : j = k
          · subst hj; simp [memRead]
          · simp [memRead, hj, Ne.symm hj]
      · next hlt hne =>
        by_cases hj : a = j
        · subst hj; simp [memRead, Ne.symm hne]
        · simp [memRead, hj, ih hrest]

/-- A read after a write gives the byte written at its index, and every other byte as before. -/
theorem memRead_memWrite {m : Memory} (h : m.wf = true) (k : Nat) (v : Byte) (j : Nat) :
    memRead (memWrite m k v) j = if j = k then v else memRead m j :=
  memRead_memWrite_from h j

theorem wfFrom_memOfBytes (k : Nat) (bytes : List Byte) : Memory.wfFrom k (memOfBytes k bytes) = true := by
  induction bytes generalizing k with
  | nil => rfl
  | cons b rest ih =>
    unfold memOfBytes
    split
    · exact wfFrom_mono (ih (k + 1)) (by omega)
    · simp [Memory.wfFrom, *]

/-- Binding a storage array gives a canonical memory. -/
theorem wf_memOfBytes (bytes : List Byte) : Memory.wf (memOfBytes 0 bytes) = true := wfFrom_memOfBytes 0 bytes

theorem wf_powerOn : State.powerOn.fb.wf = true := rfl

theorem wf_reset : State.reset.fb.wf = true := rfl

/-- The host's byte write: it answers only inside the buffer, and is then `memWrite`. -/
theorem fbWrite_ok {cfg : Config} {fb fb' : Memory} {x y : Int} {v : Byte} (h : fbWrite cfg fb x y v = .ok fb') :
    inBuffer cfg x y = true ∧ fb' = memWrite fb (pixelIndex cfg x y) v := by
  unfold fbWrite at h
  split at h
  · next hin => exact ⟨hin, by simpa using h.symm⟩
  · simp at h

/-- A colour is stored as given (R138). -/
@[simp] theorem colorByte_toNat (c : Color) : (colorByte c).toNat = c.toNat := by
  have := c.isLt
  simp only [colorByte, BitVec.toNat_setWidth]
  omega

/-- A property of buffers that every write of a pixel value keeps. -/
abbrev KeptByPixels (P : Memory → Prop) : Prop := ∀ m k (v : Byte), v.toNat ≤ 15 → P m → P (memWrite m k v)

section keeps

variable {P : Memory → Prop} (hP : KeptByPixels P) {cfg : Config} {fb fb' : Memory}
include hP

theorem fbWrite_keeps {x y : Int} {v : Byte} (hv : v.toNat ≤ 15) (hfb : P fb) (h : fbWrite cfg fb x y v = .ok fb') :
    P fb' := by
  rw [(fbWrite_ok h).2]
  exact hP _ _ _ hv hfb

theorem plot_keeps {pts : List (Int × Int × Byte)} (hpts : ∀ p ∈ pts, p.2.2.toNat ≤ 15) (hfb : P fb)
    (h : plot cfg pts fb = .ok fb') : P fb' := by
  induction pts generalizing fb with
  | nil => exact (Except.ok.inj h) ▸ hfb
  | cons p rest ih =>
    obtain ⟨x, y, v⟩ := p
    unfold plot at h
    split at h
    · next hw =>
      exact ih (fun q hq => hpts q (by simp [hq])) (fbWrite_keeps hP (hpts (x, y, v) (by simp)) hfb hw) h
    · simp at h

theorem clearBuffer_keeps {color : Byte} (hv : color.toNat ≤ 15) (hfb : P fb) : P (clearBuffer cfg fb color) := by
  unfold clearBuffer
  generalize List.range (cfg.fbStride * cfg.fbHeight) = ks
  induction ks generalizing fb with
  | nil => simpa using hfb
  | cons k rest ih =>
    simp only [List.foldl_cons]
    refine ih ?_
    split
    · exact hP _ _ _ hv hfb
    · split
      · exact hP _ _ _ hv hfb
      · exact hfb

theorem blitMonochrome_keeps {sprite : MonochromeSprite} {x y : Int} {color : Byte} (hv : color.toNat ≤ 15)
    (hfb : P fb) (h : blitMonochrome cfg sprite x y color fb = .ok fb') : P fb' := by
  unfold blitMonochrome at h
  generalize spritePositions sprite = ps at h
  induction ps generalizing fb with
  | nil => exact (Except.ok.inj h) ▸ hfb
  | cons p rest ih =>
    obtain ⟨sx, sy⟩ := p
    unfold blitMonochrome.go at h
    split at h
    · next hb =>
      refine ih ?_ h
      unfold blitPixel at hb
      split at hb
      · refine fbWrite_keeps hP ?_ hfb hb
        split
        · exact hv
        · decide
      · simp at hb
    · simp at h

theorem drawText_keeps {baselineY : Int} {color : Byte} (hv : color.toNat ≤ 15) {string : List Byte} {cursor c : Int}
    (hfb : P fb) (h : drawText cfg baselineY color string cursor fb = .ok (fb', c)) : P fb' := by
  induction string generalizing cursor fb with
  | nil =>
    simp only [drawText, Except.ok.injEq, Prod.mk.injEq] at h
    exact h.1 ▸ hfb
  | cons code rest ih =>
    unfold drawText at h
    split at h
    · simp at h
    · split at h
      · simp at h
      · next hb => exact ih (blitMonochrome_keeps hP hv hfb hb) h

/-- A drawing call of the host writes pixel values and nothing else. -/
theorem drawOn_keeps {d : Draw} (hfb : P fb) (h : drawOn cfg d fb = .ok fb') : P fb' := by
  have hv : ∀ c : Color, (colorByte c).toNat ≤ 15 := fun c => by
    have := c.isLt
    rw [colorByte_toNat]
    omega
  cases d with
  | setPixel x y color => exact fbWrite_keeps hP (hv color) hfb h
  | hline x1 x2 y color => exact plot_keeps hP (by simp [hlinePixels, hv, -colorByte_toNat]) hfb h
  | vline x y1 y2 color => exact plot_keeps hP (by simp [vlinePixels, hv, -colorByte_toNat]) hfb h
  | rect r color =>
    refine plot_keeps hP (fun p hp => ?_) hfb h
    simp only [rectPixels, hlinePixels, vlinePixels, List.mem_append, List.mem_map] at hp
    obtain ((⟨_, _, rfl⟩ | ⟨_, _, rfl⟩) | ⟨_, _, rfl⟩) | ⟨_, _, rfl⟩ := hp <;> exact hv color
  | clear color => exact (Except.ok.inj h) ▸ clearBuffer_keeps hP (hv color) hfb
  | blitMonochrome sprite x y color => exact blitMonochrome_keeps hP (hv color) hfb h
  | text string x baselineY color =>
    simp only [drawOn] at h
    cases ht : drawText cfg baselineY (colorByte color) string x fb with
    | error f => rw [ht] at h; simp [Except.map] at h
    | ok p =>
      rw [ht] at h
      simp only [Except.map, Except.ok.injEq] at h
      exact h ▸ drawText_keeps hP (hv color) hfb (show _ = Except.ok (p.1, p.2) from ht)

end keeps

/-- Every drawing call of the host keeps the canonical form. -/
theorem wf_drawOn {cfg : Config} {d : Draw} {fb fb' : Memory} (hfb : fb.wf = true)
    (h : drawOn cfg d fb = .ok fb') : fb'.wf = true :=
  drawOn_keeps (P := fun m => m.wf = true) (fun _ _ _ _ hm => wf_memWrite hm _ _) hfb h

/-- Every drawing call of the host keeps the pixel bytes in 0..15 (R61). -/
theorem pixels_drawOn {cfg : Config} {d : Draw} {fb fb' : Memory} (hfb : fb.wf = true)
    (hp : ∀ k, (memRead fb k).toNat ≤ 15) (h : drawOn cfg d fb = .ok fb') : ∀ k, (memRead fb' k).toNat ≤ 15 := by
  refine (drawOn_keeps (P := fun m => m.wf = true ∧ ∀ k, (memRead m k).toNat ≤ 15) ?_ ⟨hfb, hp⟩ h).2
  rintro m k v hv ⟨hm, hk⟩
  refine ⟨wf_memWrite hm _ _, fun j => ?_⟩
  rw [memRead_memWrite hm]
  split
  · exact hv
  · exact hk j

/-- A span with ordered ends holds both ends and everything between. -/
theorem mem_span {a b x : Int} (h : a ≤ b) : x ∈ span a b ↔ a ≤ x ∧ x ≤ b := by
  simp only [span, h, if_true, List.mem_map, List.mem_range]
  constructor
  · rintro ⟨k, hk, rfl⟩
    omega
  · rintro ⟨h1, h2⟩
    exact ⟨(x - a).toNat, by omega, by omega⟩

/-- Plotting pixels inside the buffer writes their bytes and leaves every other byte. -/
theorem plot_ok {cfg : Config} {v : Byte} (pts : List (Int × Int)) (fb : Memory) (hfb : fb.wf = true)
    (h : ∀ p ∈ pts, inBuffer cfg p.1 p.2 = true) :
    ∃ fb', plot cfg (pts.map fun p => (p.1, p.2, v)) fb = .ok fb' ∧
      ∀ k, memRead fb' k = if ∃ p ∈ pts, k = pixelIndex cfg p.1 p.2 then v else memRead fb k := by
  induction pts generalizing fb with
  | nil => exact ⟨fb, rfl, by simp⟩
  | cons p r ih =>
    obtain ⟨fb', h1, h2⟩ :=
      ih (memWrite fb (pixelIndex cfg p.1 p.2) v) (wf_memWrite hfb _ _) fun q hq => h q (by simp [hq])
    refine ⟨fb', ?_, fun k => ?_⟩
    · simp only [List.map_cons, plot, fbWrite, h p (by simp), if_true]
      exact h1
    · rw [h2, memRead_memWrite hfb]
      by_cases ha : ∃ q ∈ r, k = pixelIndex cfg q.1 q.2
      · obtain ⟨q, hq, e⟩ := ha
        rw [if_pos ⟨q, hq, e⟩, if_pos ⟨q, by simp [hq], e⟩]
      · rw [if_neg ha]
        by_cases hb : k = pixelIndex cfg p.1 p.2
        · rw [if_pos hb, if_pos ⟨p, by simp, hb⟩]
        · rw [if_neg hb, if_neg]
          rintro ⟨q, hq, e⟩
          rcases List.mem_cons.1 hq with rfl | hq
          · exact hb e
          · exact ha ⟨q, hq, e⟩

end Sys2Proof.Machine
end

