-- ==== Sys2Proof/Laws/PerInstr.lean ====
section
/-! SUPPORT. A law of every instruction as syntax: the operands a command's bytes carry (43 R209 c) give the same
bytes again, so the normal form a decoder answers is the same command on the bus. -/

namespace Sys2Proof

/-! ## Bits of the packing functions -/

theorem and_and_self (n m : Byte) : (n &&& m) &&& m = n &&& m := by simp [BitVec.and_assoc]

theorem nibbles_carried (lo hi : Byte) : nibbles (lo &&& 0xF) (hi &&& 0xF) = nibbles lo hi := by
  simp [nibbles, BitVec.and_assoc]

theorem windowField_carried (a : Int) : windowField (a % 128) = windowField a := by
  simp [windowField]

theorem vslByte_carried (vsl : Byte) : vslByte (vsl &&& 0x5F) = vslByte vsl := by
  ext i hi
  have : i = 0 ∨ i = 1 ∨ i = 2 ∨ i = 3 ∨ i = 4 ∨ i = 5 ∨ i = 6 ∨ i = 7 := by omega
  rcases this with rfl | rfl | rfl | rfl | rfl | rfl | rfl | rfl <;> simp [vslByte]

theorem qualityByte_carried (q : Byte) : qualityByte (q &&& 0x1F) = qualityByte q := by
  ext i hi
  have : i = 0 ∨ i = 1 ∨ i = 2 ∨ i = 3 ∨ i = 4 ∨ i = 5 ∨ i = 6 ∨ i = 7 := by omega
  rcases this with rfl | rfl | rfl | rfl | rfl | rfl | rfl | rfl <;> simp [qualityByte]

/-- The two fields of the GPIO byte give the byte back. -/
theorem gpioByte_fields (a : Byte) : gpioByte (a &&& 0x03) (a >>> 2) = a := by
  ext i hi
  have : i = 0 ∨ i = 1 ∨ i = 2 ∨ i = 3 ∨ i = 4 ∨ i = 5 ∨ i = 6 ∨ i = 7 := by omega
  rcases this with rfl | rfl | rfl | rfl | rfl | rfl | rfl | rfl <;> simp [gpioByte]

/-- The bytes of the operands a command carries are the command's bytes. -/
theorem encode_carried (cfg : Config) (c : Command) : encode cfg c.carried = some (c.bytes cfg) := by
  cases c with
  | setColumnAddress s e => simp [Command.carried, encode, Instr.toCommand, Command.bytes, Command.opcode, Command.args, windowField_carried]
  | setRowAddress s e => simp [Command.carried, encode, Instr.toCommand, Command.bytes, Command.opcode, Command.args, windowField_carried]
  | displayEnhancementA vsl q => simp only [Command.carried, encode, Instr.toCommand, Command.bytes, Command.opcode, Command.args, vslByte_carried, qualityByte_carried, Option.map_some]
  | setGpio g0 g1 => simp only [Command.carried, encode, Instr.toCommand, Command.bytes, Command.opcode, Command.args, gpioByte_fields, Option.map_some]
  | setClockDivAndOscFreq d f => simp only [Command.carried, encode, Instr.toCommand, Command.bytes, Command.opcode, Command.args, nibbles_carried, Option.map_some]
  | setPhaseLength d f => simp only [Command.carried, encode, Instr.toCommand, Command.bytes, Command.opcode, Command.args, nibbles_carried, Option.map_some]
  | _ => simp only [Command.carried, encode, Instr.toCommand, Command.bytes, Command.opcode, Command.args, and_and_self, Option.map_some]

namespace Laws.Carried

/-- The operands the bytes of an instruction carry give the same bytes. -/
def Statement (i : Instr) : Prop :=
  ∀ (cfg : Config) (c : Command), i.toCommand = some c → encode cfg c.carried = encode cfg i

theorem setCommandLock (lock : Bool) : Statement (.setCommandLock lock) := by
  rintro cfg _ ⟨⟩
  exact encode_carried cfg _

theorem setDisplayOn (enable : Bool) : Statement (.setDisplayOn enable) := by
  rintro cfg _ ⟨⟩
  exact encode_carried cfg _

theorem setClockDivAndOscFreq (div freq : Byte) : Statement (.setClockDivAndOscFreq div freq) := by
  rintro cfg _ ⟨⟩
  exact encode_carried cfg _

theorem setMuxRatio (n : Byte) : Statement (.setMuxRatio n) := by
  rintro cfg _ ⟨⟩
  exact encode_carried cfg _

theorem setStartLine (n : Byte) : Statement (.setStartLine n) := by
  rintro cfg _ ⟨⟩
  exact encode_carried cfg _

theorem setOffset (n : Byte) : Statement (.setOffset n) := by
  rintro cfg _ ⟨⟩
  exact encode_carried cfg _

theorem setRemapMode (inc colRemap nibbleRemap scanDir splitOddEven dualCom : Bool) : Statement (.setRemapMode inc colRemap nibbleRemap scanDir splitOddEven dualCom) := by
  rintro cfg _ ⟨⟩
  exact encode_carried cfg _

theorem vddFunctionSelect (mode : Byte) : Statement (.vddFunctionSelect mode) := by
  rintro cfg _ ⟨⟩
  exact encode_carried cfg _

theorem displayEnhancementA (vsl quality : Byte) : Statement (.displayEnhancementA vsl quality) := by
  rintro cfg _ ⟨⟩
  exact encode_carried cfg _

theorem setContrastCurrent (v : Byte) : Statement (.setContrastCurrent v) := by
  rintro cfg _ ⟨⟩
  exact encode_carried cfg _

theorem masterContrastCurrentControl (v : Byte) : Statement (.masterContrastCurrentControl v) := by
  rintro cfg _ ⟨⟩
  exact encode_carried cfg _

theorem setPhaseLength (p1 p2 : Byte) : Statement (.setPhaseLength p1 p2) := by
  rintro cfg _ ⟨⟩
  exact encode_carried cfg _

theorem setPrechargeVoltage (v : Byte) : Statement (.setPrechargeVoltage v) := by
  rintro cfg _ ⟨⟩
  exact encode_carried cfg _

theorem setVcomh (v : Byte) : Statement (.setVcomh v) := by
  rintro cfg _ ⟨⟩
  exact encode_carried cfg _

theorem setMode (mode : Byte) : Statement (.setMode mode) := by
  rintro cfg _ ⟨⟩
  exact encode_carried cfg _

theorem setColumnAddress (s e : Int) : Statement (.setColumnAddress s e) := by
  rintro cfg _ ⟨⟩
  exact encode_carried cfg _

theorem setRowAddress (s e : Int) : Statement (.setRowAddress s e) := by
  rintro cfg _ ⟨⟩
  exact encode_carried cfg _

theorem writeRam : Statement .writeRam := by
  rintro cfg _ ⟨⟩
  exact encode_carried cfg _

theorem readRam : Statement .readRam := by
  rintro cfg _ ⟨⟩
  exact encode_carried cfg _

theorem enablePartialDisplay (s e : Byte) : Statement (.enablePartialDisplay s e) := by
  rintro cfg _ ⟨⟩
  exact encode_carried cfg _

theorem exitPartialDisplay : Statement .exitPartialDisplay := by
  rintro cfg _ ⟨⟩
  exact encode_carried cfg _

theorem setGpio (g0 g1 : Byte) : Statement (.setGpio g0 g1) := by
  rintro cfg _ ⟨⟩
  exact encode_carried cfg _

theorem setSecondPrechargePeriod (p : Byte) : Statement (.setSecondPrechargePeriod p) := by
  rintro cfg _ ⟨⟩
  exact encode_carried cfg _

theorem setGrayScaleTable (t : GrayTable) : Statement (.setGrayScaleTable t) := by
  rintro cfg _ ⟨⟩
  exact encode_carried cfg _

theorem setDefaultGrayScaleTable : Statement .setDefaultGrayScaleTable := by
  rintro cfg _ ⟨⟩
  exact encode_carried cfg _

theorem enableGrayScaleTable : Statement .enableGrayScaleTable := by
  rintro cfg _ ⟨⟩
  exact encode_carried cfg _

theorem reset : Statement .reset := by
  intro cfg c h
  simp [Instr.toCommand] at h

theorem write (type : TxType) (byte : Byte) : Statement (.write type byte) := by
  intro cfg c h
  simp [Instr.toCommand] at h

theorem multiWriteBegin : Statement .multiWriteBegin := by
  intro cfg c h
  simp [Instr.toCommand] at h

theorem multiWriteByte (byte : Byte) : Statement (.multiWriteByte byte) := by
  intro cfg c h
  simp [Instr.toCommand] at h

theorem multiWriteEnd : Statement .multiWriteEnd := by
  intro cfg c h
  simp [Instr.toCommand] at h

theorem read (type : TxType) : Statement (.read type) := by
  intro cfg c h
  simp [Instr.toCommand] at h

theorem rawCommand (opcode : Byte) (args : List Byte) : Statement (.rawCommand opcode args) := by
  intro cfg c h
  simp [Instr.toCommand] at h

theorem command (c : Command) : Statement (.command c) := by
  rintro cfg _ ⟨⟩
  exact encode_carried cfg _

theorem bestFitX (r : Rect) (minSpan : Int) : Statement (.bestFitX r minSpan) := by
  intro cfg c h
  simp [Instr.toCommand] at h

theorem refresh (dirty : Rect) : Statement (.refresh dirty) := by
  intro cfg c h
  simp [Instr.toCommand] at h

end Laws.Carried

end Sys2Proof
end

