-- ==== Sys2Proof/Laws/Refresh.lean ====
section
/-! SUPPORT. The bytes a refresh streams: their number and the byte at each place (44 R236, R239). -/

namespace Sys2Proof.Machine

/-- Pieces of one length joined: the length of the whole. -/
theorem length_flatMap_const {α β : Type} (f : α → List β) (k : Nat) (hf : ∀ x, (f x).length = k) (l : List α) :
    (l.flatMap f).length = l.length * k := by
  induction l with
  | nil => simp
  | cons x r ih => simp [ih, hf, Nat.succ_mul]; omega

/-- Pieces of one length joined: the element `j` of piece `i`. -/
theorem getElem?_flatMap_const {α β : Type} (f : α → List β) (k : Nat) (hf : ∀ x, (f x).length = k) (l : List α)
    (i j : Nat) (hj : j < k) : (l.flatMap f)[i * k + j]? = (l[i]?).bind fun x => (f x)[j]? := by
  induction l generalizing i with
  | nil => simp
  | cons x r ih =>
    rw [List.flatMap_cons]
    cases i with
    | zero => rw [List.getElem?_append_left (by rw [hf]; omega)]; simp
    | succ i =>
      rw [List.getElem?_append_right (by rw [hf]; nlinarith), hf,
        show (i + 1) * k + j - k = i * k + j by rw [Nat.succ_mul]; omega, ih]
      rfl

/-- A row of the aligned rectangle gives two bytes for every group of four pixels. -/
theorem length_rowBytes (cfg : Config) (fb : Memory) (a : Rect) (y : Int) :
    (rowBytes cfg fb a y).length = (a.w / 4).toNat * 2 := by
  rw [rowBytes, length_flatMap_const _ 2 (fun _ => rfl), List.length_range]

theorem length_streamBytes (cfg : Config) (fb : Memory) (a : Rect) :
    (streamBytes cfg fb a).length = a.h.toNat * ((a.w / 4).toNat * 2) := by
  rw [streamBytes, length_flatMap_const _ _ (fun _ => length_rowBytes _ _ _ _), List.length_range]

/-- A rectangle with a positive width and height streams at least one byte. -/
theorem streamBytes_ne_nil {cfg : Config} {fb : Memory} {d : Rect} (hw : 0 < d.w) (hh : 0 < d.h) :
    streamBytes cfg fb (alignX d 4) ≠ [] := by
  have h1 : 0 < ((alignX d 4).w / 4).toNat := by simp only [alignX, floorDiv, ceilDiv]; omega
  have h2 : 0 < (alignX d 4).h.toNat := by simp only [alignX]; omega
  intro h
  have := congrArg List.length h
  rw [length_streamBytes] at this
  simp only [List.length_nil, Nat.mul_eq_zero] at this
  omega

end Sys2Proof.Machine
end

