-- ==== Sys2Proof/Laws/Trace.lean ====
section
/-! SUPPORT. The transfer trace over the events of each operation (10_state R47), the commands of a longer transfer
trace (30 R103), and the delays of a longer event trace (70 R307). -/

namespace Sys2Proof.Machine

theorem transfersFrom_append (r : Replay) (xs ys : List Event) :
    transfersFrom r (xs ++ ys) = transfersFrom r xs ++ transfersFrom (xs.foldl Replay.after r) ys := by
  induction xs generalizing r with
  | nil => rfl
  | cons e rest ih => simp [transfersFrom, ih]

@[simp] theorem replay_pins (r : Replay) (es : List Event) :
    (es.foldl Replay.after r).pins = es.foldl Latches.after r.pins := by
  induction es generalizing r with
  | nil => rfl
  | cons e rest ih => rw [List.foldl_cons, List.foldl_cons, ih]; rfl

/-- What the derivation of the transfer trace knows after the state's trace. -/
def State.replay (s : State) : Replay := s.trace.foldl Replay.after Replay.initial

theorem State.replay_pins (s : State) : s.replay.pins = latchesOf s.trace := by
  simp [State.replay, latchesOf, Replay.initial]

/-- The transfers of a longer trace. -/
theorem transfersOf_append (xs ys : List Event) :
    transfersOf (xs ++ ys) = transfersOf xs ++ transfersFrom (xs.foldl Replay.after Replay.initial) ys :=
  transfersFrom_append _ _ _

/-- A `reset` records no transfer, whatever went before (R292). -/
@[simp] theorem transfersFrom_resetEvents (r : Replay) (d : DelayCounts) : transfersFrom r (resetEvents d) = [] := by
  simp [resetEvents, transfersFrom, transferAt, Replay.after, Latches.after]

/-- A single write records one write transfer, whatever went before (R154). -/
@[simp] theorem transfersFrom_writeEvents (r : Replay) (d : DelayCounts) (type : TxType) (b : Byte) :
    transfersFrom r (writeEvents d type b) = [⟨.w, some (dcLevel type), some b⟩] := by
  cases type <;> simp [writeEvents, transfersFrom, transferAt, Replay.after, Latches.after, wrLevel, drivenByte, dcLevel]

/-- A single read records one read transfer, whatever went before (R160). -/
@[simp] theorem transfersFrom_readEvents (r : Replay) (d : DelayCounts) (type : TxType) (v : Byte) :
    transfersFrom r (readEvents d type v) = [⟨.r, some (dcLevel type), some v⟩] := by
  cases type <;> simp [readEvents, transfersFrom, transferAt, Replay.after, Latches.after, wrLevel, dcLevel]

/-- `multi_write_begin` records none. -/
@[simp] theorem transfersFrom_beginEvents (r : Replay) (d : DelayCounts) : transfersFrom r (beginEvents d) = [] := by
  simp [beginEvents, transfersFrom, transferAt]

/-- A batched byte records one write under the `DC` level and the direction it finds (R158). -/
theorem transfersFrom_byteEvents {r : Replay} (d : DelayCounts) (b : Byte) (hcs : r.pins.cs = some .low) :
    transfersFrom r (byteEvents d b) =
      [⟨.w, r.pins.dc, if r.pins.dir = some .output then some b else none⟩] := by
  simp [byteEvents, transfersFrom, transferAt, Replay.after, Latches.after, wrLevel, drivenByte, hcs]

theorem transfersFrom_dataWrites (r : Replay) (d : DelayCounts) (args : List Byte) :
    transfersFrom r (args.flatMap (writeEvents d .data)) = args.map fun a => ⟨.w, some .high, some a⟩ := by
  induction args generalizing r with
  | nil => rfl
  | cons a rest ih => simp [transfersFrom_append, ih, dcLevel]

/-- The transfers of a command's bytes (R180). -/
@[simp] theorem transfersFrom_frameEvents (r : Replay) (d : DelayCounts) (o : Byte) (args : List Byte) :
    transfersFrom r (frameEvents d o args) =
      ⟨.w, some .low, some o⟩ :: args.map fun a => ⟨.w, some .high, some a⟩ := by
  simp [frameEvents, transfersFrom_append, transfersFrom_dataWrites, dcLevel]

theorem transfersFrom_batchBytes {r : Replay} (d : DelayCounts) (bytes : List Byte)
    (hcs : r.pins.cs = some .low) (hdc : r.pins.dc = some .high) (hdir : r.pins.dir = some .output) :
    transfersFrom r (bytes.flatMap (byteEvents d)) = bytes.map fun b => ⟨.w, some .high, some b⟩ := by
  induction bytes generalizing r with
  | nil => rfl
  | cons b rest ih =>
    rw [List.flatMap_cons, transfersFrom_append, transfersFrom_byteEvents d b hcs]
    rw [ih (by simp [hcs]) (by simp [hdc]) (by simp [hdir])]
    simp [hdc, hdir]

/-- The transfers of a refresh: seven addressing transfers, then the streamed bytes (R235, R239). -/
theorem transfersFrom_refreshEvents (r : Replay) (cfg : Config) (a : Rect) (bytes : List Byte) :
    transfersFrom r (refreshEvents cfg a bytes) =
      [⟨.w, some .low, some 0x15⟩,
       ⟨.w, some .high, some (BitVec.ofInt 8 ((cfg.colStart + a.x / 4) % 128))⟩,
       ⟨.w, some .high, some (BitVec.ofInt 8 ((cfg.colStart + (a.x + a.w) / 4 - 1) % 128))⟩,
       ⟨.w, some .low, some 0x75⟩,
       ⟨.w, some .high, some (BitVec.ofInt 8 ((cfg.rowStart + a.y) % 128))⟩,
       ⟨.w, some .high, some (BitVec.ofInt 8 ((cfg.rowStart + a.y + a.h) % 128))⟩,
       ⟨.w, some .low, some 0x5C⟩] ++ bytes.map fun b => ⟨.w, some .high, some b⟩ := by
  simp only [refreshEvents, batchEvents, transfersFrom_append, transfersFrom_frameEvents, transfersFrom_beginEvents,
    List.nil_append]
  rw [transfersFrom_batchBytes] <;> simp [transfersFrom, transferAt]

/-! ## Commands of a longer transfer trace -/

/-- A `C:` transfer ends the command before it. -/
theorem dataBytes_append_command (xs ys : List Transfer) (b : Latch Byte) :
    framesOf.dataBytes (xs ++ ⟨.w, some .low, b⟩ :: ys) = framesOf.dataBytes xs := by
  induction xs with
  | nil => rfl
  | cons x r ih => obtain ⟨_ | _, _ | _ | _, c⟩ := x <;> simp [framesOf.dataBytes, ih]

/-- A `C:` transfer starts a new command. -/
theorem framesOf_append_command (xs ys : List Transfer) (b : Latch Byte) :
    framesOf (xs ++ ⟨.w, some .low, b⟩ :: ys) = framesOf xs ++ framesOf (⟨.w, some .low, b⟩ :: ys) := by
  induction xs with
  | nil => rfl
  | cons x r ih =>
    obtain ⟨_ | _, _ | _ | _, c⟩ := x <;>
      simp only [List.cons_append, framesOf, ih, dataBytes_append_command]

/-- `D:` transfers are bytes of the command they follow. -/
theorem dataBytes_data (bs : List (Latch Byte)) :
    framesOf.dataBytes (bs.map fun b => ⟨.w, some .high, b⟩) = bs := by
  induction bs with
  | nil => rfl
  | cons b r ih => simp [framesOf.dataBytes, ih]

theorem framesOf_data (bs : List (Latch Byte)) : framesOf (bs.map fun b => ⟨.w, some .high, b⟩) = [] := by
  induction bs with
  | nil => rfl
  | cons b r ih => simp [framesOf, ih]

/-- A read belongs to no command. -/
theorem framesOf_append_read (xs : List Transfer) (dc : Latch Level) (v : Latch Byte) :
    framesOf (xs ++ [⟨.r, dc, v⟩]) = framesOf xs := by
  have hd : ∀ xs, framesOf.dataBytes (xs ++ [⟨.r, dc, v⟩]) = framesOf.dataBytes xs := by
    intro xs
    induction xs with
    | nil => rfl
    | cons x r ih => obtain ⟨_ | _, _ | _ | _, c⟩ := x <;> simp [framesOf.dataBytes, ih]
  induction xs with
  | nil => rfl
  | cons x r ih => obtain ⟨_ | _, _ | _ | _, c⟩ := x <;> simp [framesOf, ih, hd]

/-- A `D:` transfer is one more byte of the last command. -/
theorem framesOf_append_byte {xs : List Transfer} {fs : List Frame} {f : Frame} (b : Latch Byte)
    (h : framesOf xs = fs ++ [f]) :
    framesOf (xs ++ [⟨.w, some .high, b⟩]) = fs ++ [⟨f.opcode, f.args ++ [b]⟩] := by
  have hd : ∀ ys, framesOf ys = [] →
      framesOf.dataBytes (ys ++ [⟨.w, some .high, b⟩]) = framesOf.dataBytes ys ++ [b] ∧
        framesOf (ys ++ [⟨.w, some .high, b⟩]) = [] := by
    intro ys
    induction ys with
    | nil => intro; exact ⟨rfl, rfl⟩
    | cons y r ih =>
      obtain ⟨_ | _, _ | _ | _, c⟩ := y <;> intro hy <;> simp only [framesOf, reduceCtorEq] at hy <;>
        simp [framesOf, framesOf.dataBytes, ih hy]
  have hs : ∀ ys, framesOf ys ≠ [] →
      framesOf.dataBytes (ys ++ [⟨.w, some .high, b⟩]) = framesOf.dataBytes ys := by
    intro ys
    induction ys with
    | nil => intro hy; exact absurd rfl hy
    | cons y r ih =>
      obtain ⟨_ | _, _ | _ | _, c⟩ := y <;> intro hy <;> simp only [framesOf] at hy <;>
        simp [framesOf.dataBytes]
      all_goals first | rfl | exact ih hy
  induction xs generalizing fs with
  | nil => simp [framesOf] at h
  | cons x r ih =>
    obtain ⟨_ | _, _ | _ | _, c⟩ := x
    · exact ih h
    · simp only [framesOf] at h
      cases hr : framesOf r with
      | nil =>
        rw [hr] at h
        cases fs with
        | nil =>
          simp only [List.nil_append, List.cons.injEq, and_true] at h
          simp [framesOf, hd r hr, ← h]
        | cons g gs => simp at h
      | cons g gs =>
        cases fs with
        | nil => simp [hr] at h
        | cons g' gs' =>
          simp only [List.cons_append, List.cons.injEq] at h
          simp only [List.cons_append, framesOf, hs r (by simp [hr]), ih h.2, h.1]
    · exact ih h
    all_goals exact ih h

/-- A longer transfer trace only adds bytes to the last command, and commands after it. -/
theorem framesOf_append_mem {xs : List Transfer} (ys : List Transfer) {f : Frame} (h : f ∈ framesOf xs) :
    ∃ more, ⟨f.opcode, f.args ++ more⟩ ∈ framesOf (xs ++ ys) := by
  have hd : ∀ xs, ∃ more, framesOf.dataBytes (xs ++ ys) = framesOf.dataBytes xs ++ more := by
    intro xs
    induction xs with
    | nil => exact ⟨_, rfl⟩
    | cons x r ih => obtain ⟨_ | _, _ | _ | _, c⟩ := x <;> simp [framesOf.dataBytes, ih]
  induction xs with
  | nil => simp [framesOf] at h
  | cons x r ih =>
    obtain ⟨_ | _, _ | _ | _, c⟩ := x
    case w.some.low =>
      simp only [framesOf, List.mem_cons] at h
      rcases h with rfl | h
      · obtain ⟨more, hm⟩ := hd r
        exact ⟨more, by simp [framesOf, hm]⟩
      · obtain ⟨more, hm⟩ := ih h
        exact ⟨more, by simp [framesOf, hm]⟩
    all_goals exact ih h

/-! ## Delays of a longer event trace -/

@[simp] theorem delayCycles_append (xs ys : List Event) : delayCycles (xs ++ ys) = delayCycles xs + delayCycles ys := by
  induction xs with
  | nil => simp [delayCycles]
  | cons e r ih => cases e <;> simp [delayCycles, ih, Nat.add_assoc]

@[simp] theorem delayCycles_writeEvents (d : DelayCounts) (type : TxType) (b : Byte) :
    delayCycles (writeEvents d type b) = d.dAs + d.dWl + d.dWh := by
  simp [writeEvents, delayCycles, Nat.add_assoc]

/-- A batch of bytes waits the address setup once and the strobe delays of every byte (R157, R158). -/
@[simp] theorem delayCycles_batchEvents (d : DelayCounts) (bytes : List Byte) :
    delayCycles (batchEvents d bytes) = d.dBas + bytes.length * (d.dBwl + d.dBwh) := by
  have hb : delayCycles (bytes.flatMap (byteEvents d)) = bytes.length * (d.dBwl + d.dBwh) := by
    induction bytes with
    | nil => simp [delayCycles]
    | cons b r ih => simp [ih, byteEvents, delayCycles]; ring
  simp [batchEvents, hb, beginEvents, delayCycles]

end Sys2Proof.Machine
end

