-- ==== Sys2Proof/Tests/Slice0.lean ====
section
/-! SUPPORT. Tests of single steps and single words, their expected values from spec/95_test_vectors.md (V-…) and
the rules named; and for every statement with hypotheses, states and operands that meet them. -/

namespace Sys2Proof.Tests

open Sys2Proof.Machine

-- One theorem at a time: a thread for each pending kernel evaluation would not fit the memory limit.
set_option Elab.async false

/-! ## A bench with concrete parameters -/

/-- The documented parameters with the open ones filled in. -/
def benchCfg : Config :=
  { Config.documented with
    delays := { dAs := 1, dWl := 2, dWh := 3, dRdl := 4, dRes := 5, dBas := 6, dBwl := 7, dBwh := 8 }
    fontBase := 0
    clearPadding := false }

/-- After `reset` from power-on, with these parameters. -/
def bench : State := { State.reset with cfg := benchCfg, trace := resetEvents benchCfg.delays }

/-- After `multi_write_begin` on the bench (V-B5). -/
def benchBatch : State :=
  { bench with
    pins := { bench.pins with dc := some .high, cs := some .low }
    trace := bench.trace ++ beginEvents benchCfg.delays
    batchOpen := true }

/-- After `read(Data)` and `multi_write_begin` on the bench: the bus is in input mode (V-B12). -/
def benchBatchInput : State :=
  { bench with
    pins := { bench.pins with dc := some .high, cs := some .low, dir := some .input }
    trace := bench.trace ++ readEvents benchCfg.delays .data 0x5A ++ beginEvents benchCfg.delays
    batchOpen := true }

/-- After `command(WriteRam)` and `multi_write_begin` on the bench. -/
def batchAfterCommand : State :=
  { bench with
    pins := { bench.pins with dc := some .high, cs := some .low, dout := some 0x5C }
    trace := bench.trace ++ writeEvents benchCfg.delays .command 0x5C ++ beginEvents benchCfg.delays
    batchOpen := true }

/-- A broken session (R265). -/
def benchBroken : State :=
  { bench with pins := Latches.unknown, session := .broken, trace := bench.trace ++ [.fail (.pin .wr .low)] }

/-- A halted block (R32). -/
def benchHalted : State := { bench with fatal := some .bounds }

/-- The bench whose GPIO capability answers ok `n` times and then fails. -/
def benchFailing (n : Nat) : State := { bench with gpio := List.replicate n .ok ++ [.fail] }

/-- The bench inside a batch whose GPIO capability answers ok `n` times and then fails. -/
def batchFailing (n : Nat) : State := { benchBatch with gpio := List.replicate n .ok ++ [.fail] }

/-- The bench with the pixels of V-R1. -/
def benchPixels : State := { bench with fb := [(516, 3), (517, 5), (518, 9), (519, 1)] }

/-- A `C:` transfer. -/
def sentC (b : Byte) : Transfer := ⟨.w, some .low, some b⟩

/-- A `D:` transfer. -/
def sentD (b : Byte) : Transfer := ⟨.w, some .high, some b⟩

/-- The transfers of an operation issued on the bench, and its result. -/
def sends (i : Instr) : Option (List Transfer × Option Result) :=
  match exec i bench with
  | .next t => some (t.transfers, t.result)
  | .fault _ => none
  | .refused _ => none

/-- A property of the next state. -/
def nextHas (P : State → Bool) : Answer → Bool
  | .next t => P t
  | .fault _ => false
  | .refused _ => false

theorem exists_of_nextHas {P : State → Bool} {a : Answer} (h : nextHas P a = true) : ∃ t, a = .next t ∧ P t = true := by
  cases a with
  | next t => exact ⟨t, rfl, h⟩
  | fault f => simp [nextHas] at h
  | refused r => simp [nextHas] at h

/-! ## WellFormed refuses ill-formed terms -/

theorem test_wf_setMode_below : (Instr.setMode 3).wellFormed = false := by decide
theorem test_wf_setMode_above : (Instr.setMode 8).wellFormed = false := by decide
theorem test_wf_setMode : (Instr.setMode 4).wellFormed = true ∧ (Instr.setMode 7).wellFormed = true := by decide
theorem test_wf_column_above : (Instr.setColumnAddress 0 256).wellFormed = false := by decide
theorem test_wf_column_below : (Instr.setColumnAddress (-1) 0).wellFormed = false := by decide
theorem test_wf_row_above : (Instr.setRowAddress 256 0).wellFormed = false := by decide
theorem test_wf_row_below : (Instr.setRowAddress 0 (-1)).wellFormed = false := by decide
theorem test_wf_window : (Instr.setColumnAddress 0 255).wellFormed = true := by decide
theorem test_wf_command_mode : (Instr.command (.setMode 0)).wellFormed = false := by decide
theorem test_wf_command_column : (Instr.command (.setColumnAddress 256 0)).wellFormed = false := by decide
theorem test_wf_command_row : (Instr.command (.setRowAddress 0 256)).wellFormed = false := by decide

/-! ## Decoding: words written out from R94, first byte lowest -/

/-- V-C4: FD, 16. -/
theorem test_decode_setCommandLock : decodeTableWord 16 0x16FD = some (.setCommandLock true) := by decide +kernel
/-- V-C5: AE and AF. -/
theorem test_decode_setDisplayOn :
    decodeTableWord 8 0xAE = some (.setDisplayOn false) ∧ decodeTableWord 8 0xAF = some (.setDisplayOn true) := by
  decide +kernel
/-- V-C6: B3, 91. -/
theorem test_decode_setClockDivAndOscFreq : decodeTableWord 16 0x91B3 = some (.setClockDivAndOscFreq 1 9) := by
  decide +kernel
/-- V-C8: CA, 3F. -/
theorem test_decode_setMuxRatio : decodeTableWord 16 0x3FCA = some (.setMuxRatio 63) := by decide +kernel
/-- V-C9: A1, 48. -/
theorem test_decode_setStartLine : decodeTableWord 16 0x48A1 = some (.setStartLine 72) := by decide +kernel
/-- V-C10: A2, 05. -/
theorem test_decode_setOffset : decodeTableWord 16 0x05A2 = some (.setOffset 5) := by decide +kernel
/-- V-C11: A0, 14, 11. -/
theorem test_decode_setRemapMode :
    decodeTableWord 24 0x1114A0 = some (.setRemapMode false false true true false true) := by decide +kernel
/-- V-C14: AB, 01. -/
theorem test_decode_vddFunctionSelect : decodeTableWord 16 0x01AB = some (.vddFunctionSelect 1) := by decide +kernel
/-- V-C15: B4, A2, B5. -/
theorem test_decode_displayEnhancementA : decodeTableWord 24 0xB5A2B4 = some (.displayEnhancementA 2 0x16) := by
  decide +kernel
/-- V-C18: C1, 9F. -/
theorem test_decode_setContrastCurrent : decodeTableWord 16 0x9FC1 = some (.setContrastCurrent 0x9F) := by
  decide +kernel
/-- V-C19: C7, 0F. -/
theorem test_decode_masterContrastCurrentControl :
    decodeTableWord 16 0x0FC7 = some (.masterContrastCurrentControl 15) := by decide +kernel
/-- V-C20: B1, E2. -/
theorem test_decode_setPhaseLength : decodeTableWord 16 0xE2B1 = some (.setPhaseLength 2 0xE) := by decide +kernel
/-- V-C21: BB, 1F. -/
theorem test_decode_setPrechargeVoltage : decodeTableWord 16 0x1FBB = some (.setPrechargeVoltage 31) := by
  decide +kernel
/-- V-C22: BE, 07. -/
theorem test_decode_setVcomh : decodeTableWord 16 0x07BE = some (.setVcomh 7) := by decide +kernel
/-- V-C23: A4 and A7. -/
theorem test_decode_setMode :
    decodeTableWord 8 0xA4 = some (.setMode 4) ∧ decodeTableWord 8 0xA7 = some (.setMode 7) := by decide +kernel
/-- V-C25: 15, 1C, 5B. -/
theorem test_decode_setColumnAddress : decodeTableWord 24 0x5B1C15 = some (.setColumnAddress 28 91) := by
  decide +kernel
/-- V-C26: 75, 00, 40. -/
theorem test_decode_setRowAddress : decodeTableWord 24 0x400075 = some (.setRowAddress 0 64) := by decide +kernel
/-- V-C27: 5C and 5D. -/
theorem test_decode_ram : decodeTableWord 8 0x5C = some .writeRam ∧ decodeTableWord 8 0x5D = some .readRam := by
  decide +kernel
/-- V-C28: A8, 00, 3F and A9. -/
theorem test_decode_partialDisplay :
    decodeTableWord 24 0x3F00A8 = some (.enablePartialDisplay 0 63) ∧
      decodeTableWord 8 0xA9 = some .exitPartialDisplay := by decide +kernel
/-- V-C29 with the parameter 0xB5: B5, 0A. -/
theorem test_decode_setGpio :
    (decode { Config.documented with opcSetGpio := 0xB5 } [0xB5, 0x0A]).toOption = some (.setGpio 2 2, []) := by
  decide +kernel
/-- V-C30 with the parameter 0xB5: B6, 08. -/
theorem test_decode_setSecondPrechargePeriod :
    (decode { Config.documented with opcSetGpio := 0xB5 } [0xB6, 0x08]).toOption =
      some (.setSecondPrechargePeriod 8, []) := by decide +kernel
/-- V-C31, R95 with the printed parameter: B6, 08 is not resolved. -/
theorem test_decode_shared : decodeTableWord 16 0x08B6 = some (.rawCommand 0xB6 [0x08]) := by decide +kernel
/-- V-C32: B8 and the table 12*i. -/
theorem test_decode_setGrayScaleTable :
    (decode Config.documented
      [0xB8, 0x00, 0x0C, 0x18, 0x24, 0x30, 0x3C, 0x48, 0x54, 0x60, 0x6C, 0x78, 0x84, 0x90, 0x9C, 0xA8, 0xB4]).toOption =
      some (.setGrayScaleTable
        #v[0, 12, 24, 36, 48, 60, 72, 84, 96, 108, 120, 132, 144, 156, 168, 180], []) := by decide +kernel
/-- V-C33: B9 and 00. -/
theorem test_decode_grayTables :
    decodeTableWord 8 0xB9 = some .setDefaultGrayScaleTable ∧
      decodeTableWord 8 0x00 = some .enableGrayScaleTable := by decide +kernel
/-- R102: bit 7 of a 7-bit field is 0, so CA, BF is the word of no command. -/
theorem test_decode_reservedBit : decodeTableWord 16 0xBFCA = some (.rawCommand 0xCA [0xBF]) := by decide +kernel
/-- R101: D1 is the opcode byte of no row. -/
theorem test_decode_unknown : decodeTableWord 8 0xD1 = none := by decide +kernel
/-- A row's arguments must follow its opcode byte. -/
theorem test_decode_truncated : (decode Config.documented [0x15, 0x1C]).toOption = none := by decide +kernel
/-- The bytes after the first instruction are left. -/
theorem test_decode_rest :
    (decode Config.documented [0xAF, 0x5C]).toOption = some (.setDisplayOn true, [0x5C]) := by decide +kernel
/-- R103: after WriteRam the data bytes are pixels. -/
theorem test_frames :
    (framesOf [sentC 0x75, sentD 0x00, sentD 0x40, sentC 0x5C, sentD 0x35]).map (Frame.instr Config.documented) =
      [some (.setRowAddress 0 64, []), some (.writeRam, [some 0x35])] := by decide +kernel
/-- R103, R300: a byte the bus was not driven with counts, so FD, ⊥, 16 is not the lock command; a read does not. -/
theorem test_frames_undriven :
    framesOf [sentC 0xFD, ⟨.w, some .high, none⟩, ⟨.r, some .high, some 0x5A⟩, sentD 0x16] =
        [⟨some 0xFD, [none, some 0x16]⟩] ∧
      Frame.instr Config.documented ⟨some 0xFD, [none, some 0x16]⟩ = none := by decide +kernel

/-! ## The commands on the bus (95 section 2.3) -/

theorem test_setCommandLock : sends (.setCommandLock false) = some ([sentC 0xFD, sentD 0x12], some .ok) := by
  decide +kernel
theorem test_setDisplayOn : sends (.setDisplayOn true) = some ([sentC 0xAF], some .ok) := by decide +kernel
/-- V-C7. -/
theorem test_setClockDivAndOscFreq :
    sends (.setClockDivAndOscFreq 0x1F 0x2A) = some ([sentC 0xB3, sentD 0xAF], some .ok) := by decide +kernel
theorem test_setMuxRatio : sends (.setMuxRatio 128) = some ([sentC 0xCA, sentD 0x00], some .ok) := by decide +kernel
theorem test_setStartLine : sends (.setStartLine 200) = some ([sentC 0xA1, sentD 0x48], some .ok) := by decide +kernel
theorem test_setOffset : sends (.setOffset 0x85) = some ([sentC 0xA2, sentD 0x05], some .ok) := by decide +kernel
/-- V-C12: all six 1. -/
theorem test_setRemapMode :
    sends (.setRemapMode true true true true true true) =
      some ([sentC 0xA0, sentD 0x37, sentD 0x11], some .ok) := by decide +kernel
/-- V-C13. -/
theorem test_setRemapMode_split :
    sends (.setRemapMode false false false false true false) =
      some ([sentC 0xA0, sentD 0x20, sentD 0x01], some .ok) := by decide +kernel
theorem test_vddFunctionSelect : sends (.vddFunctionSelect 0xFF) = some ([sentC 0xAB, sentD 0xFF], some .ok) := by
  decide +kernel
/-- V-C16. -/
theorem test_displayEnhancementA :
    sends (.displayEnhancementA 0xFF 0x3F) = some ([sentC 0xB4, sentD 0xFF, sentD 0xFD], some .ok) := by
  decide +kernel
theorem test_setContrastCurrent : sends (.setContrastCurrent 0xFF) = some ([sentC 0xC1, sentD 0xFF], some .ok) := by
  decide +kernel
theorem test_masterContrastCurrentControl :
    sends (.masterContrastCurrentControl 0x1A) = some ([sentC 0xC7, sentD 0x0A], some .ok) := by decide +kernel
theorem test_setPhaseLength : sends (.setPhaseLength 0x12 0x1E) = some ([sentC 0xB1, sentD 0xE2], some .ok) := by
  decide +kernel
theorem test_setPrechargeVoltage : sends (.setPrechargeVoltage 0x3F) = some ([sentC 0xBB, sentD 0x1F], some .ok) := by
  decide +kernel
theorem test_setVcomh : sends (.setVcomh 0x0C) = some ([sentC 0xBE, sentD 0x04], some .ok) := by decide +kernel
theorem test_setMode : sends (.setMode 6) = some ([sentC 0xA6], some .ok) := by decide +kernel
/-- V-C24. -/
theorem test_setMode_refused : exec (.setMode 0) bench = .refused .modeDomain := rfl
/-- V-C25. -/
theorem test_setColumnAddress :
    sends (.setColumnAddress 0x9C 0xDB) = some ([sentC 0x15, sentD 0x1C, sentD 0x5B], some .ok) := by decide +kernel
/-- R97: a negative value is reduced modulo 128. -/
theorem test_setColumnAddress_negative :
    sends (.setColumnAddress (-1) 0) = some ([sentC 0x15, sentD 0x7F, sentD 0x00], some .ok) := by decide +kernel
/-- V-S9. -/
theorem test_setRowAddress :
    sends (.setRowAddress 130 200) = some ([sentC 0x75, sentD 0x02, sentD 0x48], some .ok) := by decide +kernel
theorem test_writeRam : sends .writeRam = some ([sentC 0x5C], some .ok) := by decide +kernel
theorem test_readRam : sends .readRam = some ([sentC 0x5D], some .ok) := by decide +kernel
theorem test_enablePartialDisplay :
    sends (.enablePartialDisplay 0 63) = some ([sentC 0xA8, sentD 0x00, sentD 0x3F], some .ok) := by decide +kernel
theorem test_exitPartialDisplay : sends .exitPartialDisplay = some ([sentC 0xA9], some .ok) := by decide +kernel
/-- V-C29: the shift drops bit 6 of `g1`. -/
theorem test_setGpio : sends (.setGpio 0 0x40) = some ([sentC 0xB6, sentD 0x00], some .ok) := by decide +kernel
theorem test_setGpio_overlap : sends (.setGpio 0x0C 0) = some ([sentC 0xB6, sentD 0x0C], some .ok) := by decide +kernel
theorem test_setSecondPrechargePeriod :
    sends (.setSecondPrechargePeriod 0x18) = some ([sentC 0xB6, sentD 0x08], some .ok) := by decide +kernel
/-- V-C32. -/
theorem test_setGrayScaleTable :
    sends (.setGrayScaleTable #v[0, 12, 24, 36, 48, 60, 72, 84, 96, 108, 120, 132, 144, 156, 168, 180]) =
      some (sentC 0xB8 :: [0x00, 0x0C, 0x18, 0x24, 0x30, 0x3C, 0x48, 0x54, 0x60, 0x6C, 0x78, 0x84, 0x90, 0x9C, 0xA8,
        0xB4].map sentD, some .ok) := by decide +kernel
theorem test_setDefaultGrayScaleTable : sends .setDefaultGrayScaleTable = some ([sentC 0xB9], some .ok) := by
  decide +kernel
theorem test_enableGrayScaleTable : sends .enableGrayScaleTable = some ([sentC 0x00], some .ok) := by decide +kernel
/-- V-C1 by `command`. -/
theorem test_command :
    sends (.command (.setColumnAddress 28 91)) = some ([sentC 0x15, sentD 0x1C, sentD 0x5B], some .ok) := by
  decide +kernel
/-- V-C2. -/
theorem test_rawCommand :
    sends (.rawCommand 0xD1 [0x82, 0x20]) = some ([sentC 0xD1, sentD 0x82, sentD 0x20], some .ok) := by
  decide +kernel

/-! ## The bus (95 section 2.2) -/

/-- V-B1: the end latches and the number of events. -/
theorem test_reset :
    nextHas (fun t => decide (t.pins = State.reset.pins) && decide (t.trace.length = 11) && decide (t.session = .ready))
      (exec .reset { State.powerOn with cfg := benchCfg }) = true := by decide +kernel
/-- V-E7. -/
theorem test_reset_in_batch : nextHas (fun t => !t.batchOpen) (exec .reset benchBatch) = true := by decide +kernel
/-- V-B2: the events after those of `reset`. -/
theorem test_write :
    nextHas (fun t => decide (t.trace.drop 11 =
      [.dir .output, .drive 0xFD, .pin .dc .low, .pin .cs .low, .delay 1, .pin .wr .low, .delay 2, .pin .wr .high,
       .delay 3, .pin .cs .high])) (exec (.write .command 0xFD) bench) = true := by decide +kernel
/-- V-B3. -/
theorem test_write_data : sends (.write .data 0x00) = some ([sentD 0x00], some .ok) := by decide +kernel
/-- V-B5: `CS` was low already after `reset`, and is driven again. -/
theorem test_multiWriteBegin :
    nextHas (fun t => decide (t.trace.drop 11 = [.pin .dc .high, .pin .cs .low, .delay 6]) && t.batchOpen)
      (exec .multiWriteBegin bench) = true := by decide +kernel
/-- V-B6. -/
theorem test_multiWriteByte :
    nextHas (fun t => decide (t.trace.drop 14 = [.drive 0x35, .pin .wr .low, .delay 7, .pin .wr .high, .delay 8]) &&
      decide (t.transfers = [sentD 0x35])) (exec (.multiWriteByte 0x35) benchBatch) = true := by decide +kernel
/-- V-B12: in input mode the byte is not on the bus. -/
theorem test_multiWriteByte_input :
    nextHas (fun t => decide (t.transfers = [⟨.r, some .high, some 0x5A⟩, ⟨.w, some .high, none⟩]))
      (exec (.multiWriteByte 0x35) benchBatchInput) = true := by decide +kernel
/-- V-B7. -/
theorem test_multiWriteEnd :
    nextHas (fun t => decide (t.trace.drop 14 = [.pin .cs .high]) && decide (t.pins.cs = some .high) && !t.batchOpen)
      (exec .multiWriteEnd benchBatch) = true := by decide +kernel
/-- V-B9. -/
theorem test_read :
    nextHas (fun t => decide (t.trace.drop 11 =
        [.dir .input, .pin .dc .high, .pin .cs .low, .pin .rd .low, .delay 4, .sample 0x5A, .pin .rd .high,
         .pin .cs .high]) && decide (t.result = some (.okByte 0x5A)))
      (exec (.read .data) { bench with samples := [0x5A] }) = true := by decide +kernel
/-- V-B10. -/
theorem test_read_command :
    nextHas (fun t => decide (t.transfers = [⟨.r, some .low, some 0x00⟩]) && decide (t.samples = [0x77]))
      (exec (.read .command) { bench with samples := [0x00, 0x77] }) = true := by decide +kernel

/-! ## Geometry and refresh (95 sections 2.1, 2.4) -/

/-- V-S2, V-G10, V-G11. -/
theorem test_alignX :
    alignX ⟨19, 11, 13, 15⟩ 10 = ⟨10, 11, 30, 15⟩ ∧ alignX ⟨-3, 0, 2, 1⟩ 4 = ⟨-4, 0, 4, 1⟩ ∧
      alignX ⟨-5, 0, 1, 1⟩ 4 = ⟨-8, 0, 4, 1⟩ := by decide
/-- V-S2 as an operation. -/
theorem test_bestFitX :
    nextHas (fun t => decide (t.result = some (.okRect ⟨10, 11, 30, 15⟩)) && decide (t.trace = bench.trace))
      (exec (.bestFitX ⟨19, 11, 13, 15⟩ 10) bench) = true := by decide +kernel
/-- V-G16. -/
theorem test_bestFitX_contract :
    nextHas (fun t => decide (t.fatal = some .contract)) (exec (.bestFitX ⟨19, 11, 13, 15⟩ 0) bench) = true := by
  decide +kernel
/-- V-R1. -/
theorem test_refresh :
    nextHas (fun t => decide (t.transfers =
        [sentC 0x15, sentD 0x1D, sentD 0x1D, sentC 0x75, sentD 0x02, sentD 0x03, sentC 0x5C, sentD 0x35, sentD 0x91]) &&
        decide (t.trace.length = 11 + 84))
      (exec (.refresh ⟨5, 2, 3, 1⟩) benchPixels) = true := by decide +kernel
/-- V-E9. -/
theorem test_refresh_bounds :
    nextHas (fun t => decide (t.fatal = some .bounds) && decide (t.result = none)) (exec (.refresh ⟨0, 60, 4, 8⟩) bench) =
      true := by decide +kernel
/-- V-S5. -/
theorem test_pack : streamByte 3 5 = 0x35 ∧ streamByte 9 1 = 0x91 := by decide +kernel

/-! ## Abnormal outcomes (95 section 2.5) -/

/-- V-E1: `Pin(WR,0)` of the second write is fallible step 11 (from 0). -/
theorem test_pinError :
    nextHas (fun t => decide (t.trace.drop 21 =
        [.dir .output, .drive 0x1C, .pin .dc .high, .pin .cs .low, .delay 1, .fail (.pin .wr .low)]) &&
        decide (t.transfers = [sentC 0x15]) && decide (t.pins = Latches.unknown) && decide (t.session = .broken) &&
        decide (t.result = some .errPin))
      (exec (.rawCommand 0x15 [0x1C, 0x5B]) (benchFailing 11)) = true := by decide +kernel
/-- V-E2, V-E4, V-E12. -/
theorem test_refusals :
    exec .writeRam benchBroken = .refused .notReady ∧
      exec (.write .command 0xAF) State.powerOn = .refused .notReady ∧
      exec .reset benchHalted = .refused .halted := ⟨rfl, rfl, rfl⟩
/-- V-E8: the width of the buffer is not a multiple of 4. -/
theorem test_bounds_narrow :
    nextHas (fun t => decide (t.fatal = some .bounds))
      (exec (.refresh ⟨250, 0, 4, 1⟩) { bench with cfg := { benchCfg with fbWidth := 254 } }) = true := by
  decide +kernel
/-- V-E11: `Pin(WR,1)` of the second data byte is the last of the batch's fallible steps but `Pin(CS,1)`. -/
theorem test_refresh_fails :
    nextHas (fun t => decide (t.transfers =
        [sentC 0x15, sentD 0x1D, sentD 0x1D, sentC 0x75, sentD 0x02, sentD 0x03, sentC 0x5C, sentD 0x35]) &&
        !t.batchOpen && decide (t.session = .broken))
      (exec (.refresh ⟨5, 2, 3, 1⟩) { benchPixels with gpio := List.replicate 56 .ok ++ [.fail] }) = true := by
  decide +kernel

/-! ## The host's moves -/

/-- V-S4, its second half: the border is drawn, the interior untouched. -/
theorem test_rect :
    nextHas (fun t => decide (fbRead t.cfg t.fb 1 1 = some 15) && decide (fbRead t.cfg t.fb 5 5 = some 0) &&
        decide (fbRead t.cfg t.fb 10 5 = some 15) && decide (fbRead t.cfg t.fb 11 1 = some 0))
      (step { bench with script := [.draw (.rect ⟨1, 1, 10, 10⟩ 15)] }) = true := by decide +kernel
/-- V-S6: two glyphs of advance 6 and 7 without pixels move the cursor by 13. The blob has the two records at 140
and 144. -/
theorem test_text_cursor :
    ((drawText { benchCfg with font := List.replicate 132 0 ++ [140, 0, 0, 0, 144, 0, 0, 0] ++
        [0, 0, 0, 6, 0, 0, 0, 7] } 20 15 [0x41, 0x42] 10 []).toOption.map Prod.snd) = some 23 := by decide +kernel
/-- R131: a pixel outside the buffer halts the host. -/
theorem test_draw_outside :
    step { bench with script := [.draw (.setPixel 256 0 1)] } = .fault (.hostBounds 256 0) := rfl
/-- R32: a halted block whose host issues nothing is stuck. -/
theorem test_halted_stuck : step benchHalted = .fault (.halted .bounds) := rfl
/-- A word of the table, placed and run from reset. -/
theorem test_fetch :
    nextHas (fun t => decide (t.transfers = [sentC 0xAF])) (step (State.reset.withFetchWord 8 0xAF)) = true := by
  decide +kernel

/-! ## Witnesses: states and operands that meet the hypotheses of the statements -/

theorem witness_bench (n : Nat) : bench.accepts ∧ bench.pinsAnswerOk n :=
  ⟨⟨rfl, rfl, rfl⟩, fun _ a h => by simp [bench, State.reset] at h⟩

theorem witness_batch (n : Nat) : benchBatch.inBatch ∧ benchBatch.pinsAnswerOk n :=
  ⟨⟨rfl, rfl, rfl⟩, fun _ a h => by simp [benchBatch, bench, State.reset] at h⟩

/-- An operation's last ok answer may be followed by a failing one: the boundary of `pinsAnswerOk`. -/
theorem witness_benchFailing (n : Nat) :
    (benchFailing n).accepts ∧ (benchFailing n).pinsAnswerOk n ∧ (benchFailing n).pinFailsAt n := by
  refine ⟨⟨rfl, rfl, rfl⟩, fun _ a h => ?_, rfl, fun a h => ?_, ?_⟩
  · have : a ∈ List.replicate n GpioAnswer.ok := by simpa [benchFailing] using h
    exact (List.mem_replicate.1 this).2
  · have : a ∈ List.replicate n GpioAnswer.ok := by simpa [benchFailing] using h
    exact (List.mem_replicate.1 this).2
  · simp [benchFailing]

theorem witness_batchFailing (n : Nat) : (batchFailing n).inBatch ∧ (batchFailing n).pinFailsAt n := by
  refine ⟨⟨rfl, rfl, rfl⟩, rfl, fun a h => ?_, ?_⟩
  · have : a ∈ List.replicate n GpioAnswer.ok := by simpa [batchFailing] using h
    exact (List.mem_replicate.1 this).2
  · simp [batchFailing]

/-- ResetOperationCompletes: from power-on, from a broken session and with a batch open. -/
theorem witness_ResetOperationCompletes :
    (State.powerOn.fatal = none ∧ State.powerOn.pinsAnswerOk 8) ∧
      (benchBroken.fatal = none ∧ benchBroken.pinsAnswerOk 8) ∧ (benchBatch.fatal = none ∧ benchBatch.pinsAnswerOk 8) :=
  ⟨⟨rfl, fun _ a h => by simp [State.powerOn] at h⟩,
   ⟨rfl, fun _ a h => by simp [benchBroken, bench, State.reset] at h⟩, ⟨rfl, (witness_batch 8).2⟩⟩

theorem witness_SingleWriteCompletes :
    (bench.accepts ∧ bench.pinsAnswerOk 7) ∧ ((benchFailing 7).accepts ∧ (benchFailing 7).pinsAnswerOk 7) :=
  ⟨witness_bench 7, (witness_benchFailing 7).1, (witness_benchFailing 7).2.1⟩

theorem witness_BatchBeginCompletes : (benchFailing 2).accepts ∧ (benchFailing 2).pinsAnswerOk 2 :=
  ⟨(witness_benchFailing 2).1, (witness_benchFailing 2).2.1⟩

theorem witness_BatchByteCompletes : benchBatch.inBatch ∧ benchBatch.pinsAnswerOk 3 := witness_batch 3

/-- BatchByteTransfer: the invariant inside a batch, in output and in input mode. -/
theorem witness_BatchByteTransfer :
    (benchBatch.Inv ∧ benchBatch.inBatch ∧ benchBatch.pinsAnswerOk 3 ∧ benchBatch.pins.dir = some .output) ∧
      (benchBatchInput.Inv ∧ benchBatchInput.inBatch ∧ benchBatchInput.pinsAnswerOk 3 ∧
        benchBatchInput.pins.dir = some .input) := by
  refine ⟨⟨⟨rfl, fun _ => Nat.zero_le 15, fun _ => rfl, fun _ => ⟨rfl, rfl, rfl⟩,
      fun _ => ⟨rfl, rfl, rfl, by simp [benchBatch], ?_⟩,
      fun h => absurd rfl h, by decide +kernel⟩, ⟨rfl, rfl, rfl⟩, (witness_batch 3).2, rfl⟩,
    ⟨⟨rfl, fun _ => Nat.zero_le 15, fun _ => rfl, fun _ => ⟨rfl, rfl, rfl⟩,
      fun _ => ⟨rfl, rfl, rfl, by simp [benchBatchInput], by simp [benchBatchInput]⟩, fun h => absurd rfl h, by decide +kernel⟩, ⟨rfl, rfl, rfl⟩,
      fun _ a h => by simp [benchBatchInput, bench, State.reset] at h, rfl⟩⟩
  simp [benchBatch, bench, State.reset]

/-- BatchEndCompletes: its four clauses. -/
theorem witness_BatchEndCompletes :
    (benchBatch.inBatch ∧ benchBatch.pinsAnswerOk 1) ∧ ((batchFailing 0).inBatch ∧ (batchFailing 0).pinFailsAt 0) ∧
      bench.accepts ∧ (bench.accepts ∧ bench.pinsAnswerOk 3) :=
  ⟨witness_batch 1, witness_batchFailing 0, (witness_bench 3).1, witness_bench 3⟩

/-- SingleReadCompletes: with a listed byte, and with the list empty. -/
theorem witness_SingleReadCompletes :
    (State.accepts { bench with samples := [0x5A] } ∧ State.pinsAnswerOk { bench with samples := [0x5A] } 7) ∧
      (bench.accepts ∧ bench.pinsAnswerOk 7 ∧ bench.samples = []) :=
  ⟨⟨⟨rfl, rfl, rfl⟩, (witness_bench 7).2⟩, (witness_bench 7).1, (witness_bench 7).2, rfl⟩

/-- LatchFrameOfOperations: every clause's operation returns without error. -/
theorem witness_LatchFrameOfOperations :
    (∃ t, exec .reset State.powerOn = .next t ∧ t.result ≠ some .errPin) ∧
      (∃ t, exec (.write .data 0) bench = .next t ∧ t.result ≠ some .errPin) ∧
      (∃ t, exec .multiWriteBegin bench = .next t ∧ t.result ≠ some .errPin) ∧
      (∃ t, exec (.multiWriteByte 0) benchBatch = .next t ∧ t.result ≠ some .errPin) ∧
      (∃ t, exec .multiWriteEnd benchBatch = .next t ∧ t.result ≠ some .errPin) ∧
      (∃ t, exec (.read .data) bench = .next t ∧ t.result ≠ some .errPin) ∧
      (∃ t, exec (.bestFitX ⟨0, 0, 1, 1⟩ 4) bench = .next t ∧ t.result ≠ some .errPin) :=
  ⟨⟨_, rfl, by decide⟩, ⟨_, rfl, by decide⟩, ⟨_, rfl, by decide⟩, ⟨_, rfl, by decide⟩, ⟨_, rfl, by decide⟩,
   ⟨_, rfl, nofun⟩, ⟨_, rfl, by decide⟩⟩

/-- RawCommandCompletes, its completion: without arguments and with 16. -/
theorem witness_RawCommandCompletes :
    (bench.accepts ∧ bench.pinsAnswerOk (7 * (1 + ([] : List Byte).length))) ∧
      (bench.accepts ∧ bench.pinsAnswerOk (7 * (1 + (List.replicate 16 (0 : Byte)).length))) :=
  ⟨witness_bench _, witness_bench _⟩

theorem witness_CommandIsRawCommand :
    (∀ mode, Command.setMode 4 = .setMode mode → 4 ≤ mode.toNat ∧ mode.toNat ≤ 7) ∧
      (∀ mode, Command.setMode 7 = .setMode mode → 4 ≤ mode.toNat ∧ mode.toNat ≤ 7) ∧
      (bench.accepts ∧ bench.pinsAnswerOk (7 * (1 + (Command.setMode 4).args.length))) ∧
      (∀ g0 g1, Command.setMode 4 ≠ .setGpio g0 g1) ∧ benchCfg.opcSetGpio = bench.cfg.opcSetGpio :=
  ⟨by rintro _ ⟨⟩; decide, by rintro _ ⟨⟩; decide, witness_bench _, nofun, rfl⟩

theorem witness_CommandRowsAreCommands :
    (Instr.setMuxRatio 63).toCommand = some (.setMuxRatio 63) ∧
      (Instr.command .writeRam).toCommand = some .writeRam := ⟨rfl, rfl⟩

theorem witness_OneByteCommandsComplete : bench.accepts ∧ bench.pinsAnswerOk 7 := witness_bench 7

theorem witness_MaskedCommandsComplete : (benchFailing 14).accepts ∧ (benchFailing 14).pinsAnswerOk 14 :=
  ⟨(witness_benchFailing 14).1, (witness_benchFailing 14).2.1⟩

theorem witness_UnmaskedCommandsComplete : bench.accepts ∧ bench.pinsAnswerOk 14 := witness_bench 14

theorem witness_TwoArgumentCommandsComplete : bench.accepts ∧ bench.pinsAnswerOk 21 := witness_bench 21

theorem witness_GrayScaleTableCompletes : bench.accepts ∧ bench.pinsAnswerOk 119 := witness_bench 119

/-- ReservedBitsAreFixed: the argument lists are not empty, at operands with bit 7 set. -/
theorem witness_ReservedBitsAreFixed :
    (0x7F : Byte) ∈ (Command.setMuxRatio 0xFF).args ∧ (0x00 : Byte) ∈ (Command.setColumnAddress 128 255).args ∧
      (0x7F : Byte) ∈ (Command.enablePartialDisplay 0x80 0xFF).args := by decide

/-- DecodeOfEncode: with the printed parameter, and `SetGpio` with an opcode of its own. -/
theorem witness_DecodeOfEncode :
    ((Instr.setColumnAddress 0 255).toCommand = some (.setColumnAddress 0 255) ∧
        (Instr.setColumnAddress 0 255).wellFormed = true ∧
        (Command.setColumnAddress 0 255).unambiguous Config.documented = true) ∧
      ((Instr.setGpio 3 3).toCommand = some (.setGpio 3 3) ∧ (Instr.setGpio 3 3).wellFormed = true ∧
        (Command.setGpio 3 3).unambiguous { Config.documented with opcSetGpio := 0xB5 } = true) := by decide +kernel

/-- InRangeOperandsAreCarried: both ends of the ranges, a row without operand, and `SetGpio` with an opcode of its
own. -/
theorem witness_InRangeOperandsAreCarried :
    ((Instr.setColumnAddress 0 127).toCommand = some (.setColumnAddress 0 127) ∧
        Instr.setColumnAddress 0 127 ≠ .command (.setColumnAddress 0 127) ∧
        (Command.setColumnAddress 0 127).inRange = true ∧
        (Command.setColumnAddress 0 127).unambiguous Config.documented = true) ∧
      ((Instr.exitPartialDisplay).toCommand = some .exitPartialDisplay ∧
        (Command.exitPartialDisplay).inRange = true ∧
        (Command.exitPartialDisplay).unambiguous Config.documented = true) ∧
      (Command.setClockDivAndOscFreq 15 0).inRange = true ∧ (Command.displayEnhancementA 0x5F 31).inRange = true ∧
      (Command.setPrechargeVoltage 31).inRange = true ∧ (Command.setVcomh 7).inRange = true ∧
      ((Command.setGpio 3 63).inRange = true ∧
        (Command.setGpio 3 63).unambiguous { Config.documented with opcSetGpio := 0xB5 } = true) ∧
      (Command.setColumnAddress 0 128).inRange = false ∧ (Command.setGpio 4 0).inRange = false := by decide +kernel

theorem witness_DecoderReadsExactly :
    decode Config.documented [0xFD, 0x16, 0xAF] = .ok (.setCommandLock true, [0xAF]) ∧
      decode Config.documented [0xFD, 0x00] = .ok (.rawCommand 0xFD [0x00], []) := ⟨rfl, rfl⟩

theorem witness_SharedOpcodeIsNotChosen : Config.documented.opcSetGpio = 0xB6 := rfl

/-- FloorAndCeilingDivision: a negative dividend, and values of `q` at the two bounds. -/
theorem witness_FloorAndCeilingDivision :
    0 < (4 : Int) ∧ (-1 : Int) * 4 ≤ -3 ∧ (-3 : Int) ≤ 0 * 4 := by decide

theorem witness_BestFitCompletes :
    (bench.fatal = none ∧ 0 < (4 : Int) ∧ 0 < (⟨-3, 0, 2, 1⟩ : Rect).w ∧ 0 < (⟨-3, 0, 2, 1⟩ : Rect).h) ∧
      (State.powerOn.fatal = none ∧ 0 < (1 : Int) ∧ 0 < (⟨0, 0, 1, 1⟩ : Rect).w ∧ 0 < (⟨0, 0, 1, 1⟩ : Rect).h) := by
  decide

/-- BestFitLaws: an aligned rectangle, a rectangle of width 1, and the span 1. -/
theorem witness_BestFitLaws :
    bench.fatal = none ∧ 0 < (4 : Int) ∧ 0 < (⟨-4, 0, 4, 1⟩ : Rect).w ∧ 0 < (⟨-4, 0, 4, 1⟩ : Rect).h ∧
      (⟨-4, 0, 4, 1⟩ : Rect).x % 4 = 0 ∧ (⟨-4, 0, 4, 1⟩ : Rect).w % 4 = 0 ∧ (⟨0, 0, 1, 1⟩ : Rect).w = 1 := by decide

theorem witness_NonPositiveSpanHalts : bench.fatal = none ∧ (0 : Int) ≤ 0 ∧ (-4 : Int) ≤ 0 := by decide

/-- RefreshCompletes, RefreshTransfers: a column, the whole buffer, and its last pixel. -/
theorem witness_RefreshCompletes :
    bench.accepts ∧ 0 < (⟨5, 2, 3, 1⟩ : Rect).w ∧ 0 < (⟨5, 2, 3, 1⟩ : Rect).h ∧
      rectInBuffer bench.cfg (alignX ⟨5, 2, 3, 1⟩ 4) = true ∧ rectInBuffer bench.cfg (alignX ⟨0, 0, 256, 64⟩ 4) = true ∧
      rectInBuffer bench.cfg (alignX ⟨255, 63, 1, 1⟩ 4) = true ∧
      bench.pinsAnswerOk (52 + 3 * (streamBytes bench.cfg bench.fb (alignX ⟨5, 2, 3, 1⟩ 4)).length) :=
  ⟨(witness_bench 0).1, by decide, by decide, by decide +kernel, by decide +kernel, by decide +kernel,
   (witness_bench _).2⟩

/-- StreamIsRowMajor: the first and the last byte of a rectangle. -/
theorem witness_StreamIsRowMajor :
    (⟨0, 10, 12, 2⟩ : Rect).w % 4 = 0 ∧ ((0 : Nat) : Int) < (⟨0, 10, 12, 2⟩ : Rect).h ∧
      ((1 : Nat) : Int) < (⟨0, 10, 12, 2⟩ : Rect).h ∧ ((0 : Nat) : Int) < (⟨0, 10, 12, 2⟩ : Rect).w / 4 ∧
      ((2 : Nat) : Int) < (⟨0, 10, 12, 2⟩ : Rect).w / 4 ∧ 0 < 2 ∧ 1 < 2 := by decide

/-- PixelsArePackedInNibbles: the largest pixel, and the group of V-R1. -/
theorem witness_PixelsArePackedInNibbles :
    (15 : Byte).toNat ≤ 15 ∧ (pixel benchPixels.cfg benchPixels.fb (4 + 1) 2).toNat ≤ 15 ∧
      (pixel benchPixels.cfg benchPixels.fb (4 + 3) 2).toNat ≤ 15 := by decide +kernel

/-- RefreshDependsOnAlignedRect: the two rectangles of V-R5. -/
theorem witness_RefreshDependsOnAlignedRect :
    0 < (⟨4, 2, 4, 1⟩ : Rect).w ∧ 0 < (⟨4, 2, 4, 1⟩ : Rect).h ∧ 0 < (⟨7, 2, 1, 1⟩ : Rect).w ∧
      0 < (⟨7, 2, 1, 1⟩ : Rect).h ∧ alignX ⟨4, 2, 4, 1⟩ 4 = alignX ⟨7, 2, 1, 1⟩ 4 ∧
      rectInBuffer bench.cfg (alignX ⟨4, 2, 4, 1⟩ 4) = true := by decide +kernel

/-- RefreshIsIdempotent: V-R6. -/
theorem witness_RefreshIsIdempotent :
    ∃ t u, exec (.refresh ⟨5, 2, 3, 1⟩) benchPixels = .next t ∧ exec (.refresh ⟨5, 2, 3, 1⟩) t = .next u ∧
      t.result = some .ok ∧ u.result = some .ok := by
  obtain ⟨t, h1, h2⟩ := exists_of_nextHas (a := exec (.refresh ⟨5, 2, 3, 1⟩) benchPixels)
    (P := fun t => decide (t.result = some .ok) &&
      nextHas (fun u => decide (u.result = some .ok)) (exec (.refresh ⟨5, 2, 3, 1⟩) t)) (by decide +kernel)
  simp only [Bool.and_eq_true, decide_eq_true_eq] at h2
  obtain ⟨u, h3, h4⟩ := exists_of_nextHas h2.2
  exact ⟨t, u, h1, h3, h2.1, by simpa using h4⟩

/-- RefreshDelaySum: V-R1. -/
theorem witness_RefreshDelaySum :
    ∃ t, exec (.refresh ⟨5, 2, 3, 1⟩) benchPixels = .next t ∧ t.result = some .ok := by
  obtain ⟨t, _, h, -, hr, -⟩ := witness_RefreshIsIdempotent
  exact ⟨t, h, hr⟩

/-- RefreshReadsAlignedPixelsOnly: a buffer that differs in a pixel outside the aligned rectangle. -/
theorem witness_RefreshReadsAlignedPixelsOnly :
    bench.accepts ∧ 0 < (⟨0, 0, 1, 1⟩ : Rect).w ∧ 0 < (⟨0, 0, 1, 1⟩ : Rect).h ∧
      ∀ x y : Int, (alignX ⟨0, 0, 1, 1⟩ 4).x ≤ x → x < (alignX ⟨0, 0, 1, 1⟩ 4).x + (alignX ⟨0, 0, 1, 1⟩ 4).w →
        (0 : Int) ≤ y → y < 0 + 1 →
        memRead [(4, 9)] (y * bench.cfg.fbStride + x).toNat = memRead bench.fb (y * bench.cfg.fbStride + x).toNat := by
  refine ⟨(witness_bench 0).1, by decide, by decide, fun x y h1 h2 h3 h4 => ?_⟩
  have hy : y = 0 := by omega
  have ha : alignX ⟨0, 0, 1, 1⟩ 4 = ⟨0, 0, 4, 1⟩ := by decide
  rw [ha] at h1 h2
  have hx : (4 : Nat) ≠ (y * bench.cfg.fbStride + x).toNat := by rw [hy]; simp only at h1 h2; omega
  show (if (4 : Nat) = _ then (9 : Byte) else 0) = 0
  rw [if_neg hx]

theorem witness_AlignedRectStaysInside :
    bench.cfg.fbWidth % 4 = 0 ∧ rectInBuffer bench.cfg ⟨255, 63, 1, 1⟩ = true ∧
      ∃ t, exec (.refresh ⟨255, 63, 1, 1⟩) bench = .next t := by
  obtain ⟨t, h, -⟩ := exists_of_nextHas (a := exec (.refresh ⟨255, 63, 1, 1⟩) bench) (P := fun _ => true)
    (by decide +kernel)
  exact ⟨rfl, by decide +kernel, t, h⟩

/-- RefreshOutOfBoundsHalts: one pixel over each of the four edges. -/
theorem witness_RefreshOutOfBoundsHalts :
    bench.accepts ∧ (alignX ⟨-1, 0, 1, 1⟩ 4).x < 0 ∧
      (bench.cfg.fbWidth : Int) < (alignX ⟨256, 0, 1, 1⟩ 4).x + (alignX ⟨256, 0, 1, 1⟩ 4).w ∧
      (⟨0, -1, 1, 1⟩ : Rect).y < 0 ∧ (bench.cfg.fbHeight : Int) < (⟨0, 64, 1, 1⟩ : Rect).y + (⟨0, 64, 1, 1⟩ : Rect).h :=
  ⟨(witness_bench 0).1, by decide, by decide +kernel, by decide, by decide +kernel⟩

theorem witness_HaltedRefusesEverything : benchHalted.fatal ≠ none := by decide

/-- UnreadySessionRefuses: before the first `reset`, and after a PinError. -/
theorem witness_UnreadySessionRefuses :
    (State.powerOn.fatal = none ∧ State.powerOn.session ≠ .ready) ∧
      (benchBroken.fatal = none ∧ benchBroken.session ≠ .ready) ∧
      Instr.writeRam ≠ .reset ∧ ∀ r n, Instr.writeRam ≠ .bestFitX r n :=
  ⟨⟨rfl, by decide⟩, ⟨rfl, by decide⟩, by decide, nofun⟩

/-- BatchOrderRefuses: a batch open with an operation it shuts out, and no batch open. -/
theorem witness_BatchOrderRefuses :
    (benchBatch.fatal = none ∧ benchBatch.session = .ready ∧ benchBatch.batchOpen = true ∧
        Instr.writeRam ≠ .reset ∧ (∀ r n, Instr.writeRam ≠ .bestFitX r n) ∧
        (∀ b, Instr.writeRam ≠ .multiWriteByte b) ∧ Instr.writeRam ≠ .multiWriteEnd) ∧
      (bench.fatal = none ∧ bench.session = .ready ∧ bench.batchOpen = false) :=
  ⟨⟨rfl, rfl, rfl, by decide, nofun, nofun, by decide⟩, rfl, rfl, rfl⟩

/-- EmptyRectRefuses: no width, and no height. -/
theorem witness_EmptyRectRefuses :
    ((⟨4, 0, 0, 1⟩ : Rect).w ≤ 0 ∨ (⟨4, 0, 0, 1⟩ : Rect).h ≤ 0) ∧
      ((⟨4, 0, 4, 0⟩ : Rect).w ≤ 0 ∨ (⟨4, 0, 4, 0⟩ : Rect).h ≤ 0) ∧ bench.fatal = none ∧ 0 < (4 : Int) ∧
      bench.accepts := ⟨by decide, by decide, rfl, by decide, (witness_bench 0).1⟩

/-- SetModeByDomain: the modes on both sides of its two bounds. -/
theorem witness_SetModeByDomain :
    bench.accepts ∧ (4 ≤ (4 : Byte).toNat ∧ (4 : Byte).toNat ≤ 7 ∧ bench.pinsAnswerOk 7) ∧
      (4 ≤ (7 : Byte).toNat ∧ (7 : Byte).toNat ≤ 7) ∧ ((3 : Byte).toNat < 4 ∨ 7 < (3 : Byte).toNat) ∧
      ((8 : Byte).toNat < 4 ∨ 7 < (8 : Byte).toNat) :=
  ⟨(witness_bench 0).1, ⟨by decide, by decide, (witness_bench 7).2⟩, by decide, by decide, by decide⟩

theorem witness_PinErrorEntry :
    ∃ t, exec (.write .command 0xAF) (benchFailing 3) = .next t ∧ t.result = some .errPin := by
  obtain ⟨t, h1, h2⟩ := exists_of_nextHas (a := exec (.write .command 0xAF) (benchFailing 3))
    (P := fun t => decide (t.result = some .errPin)) (by decide +kernel)
  exact ⟨t, h1, by simpa using h2⟩

/-- WritesFailAtStep: the last fallible step of each of the four operations. -/
theorem witness_WritesFailAtStep :
    ((benchFailing 6).pinFailsAt 6 ∧ (benchFailing 6).accepts ∧ 6 < 7) ∧
      ((benchFailing 1).pinFailsAt 1 ∧ (benchFailing 1).accepts ∧ 1 < 2) ∧
      ((batchFailing 2).pinFailsAt 2 ∧ (batchFailing 2).inBatch ∧ 2 < 3) ∧
      ((batchFailing 0).pinFailsAt 0 ∧ (batchFailing 0).inBatch ∧ 0 < 1) :=
  ⟨⟨(witness_benchFailing 6).2.2, (witness_benchFailing 6).1, by decide⟩,
   ⟨(witness_benchFailing 1).2.2, (witness_benchFailing 1).1, by decide⟩,
   ⟨(witness_batchFailing 2).2, (witness_batchFailing 2).1, by decide⟩,
   ⟨(witness_batchFailing 0).2, (witness_batchFailing 0).1, by decide⟩⟩

/-- RawCommandCompletes, its abort: the first and the last fallible step of three bytes; its refusal. -/
theorem witness_RawCommandCompletes_abort :
    ((benchFailing 0).accepts ∧ 0 < 7 * (1 + [(0x1C : Byte), 0x5B].length) ∧ (benchFailing 0).pinFailsAt 0) ∧
      ((benchFailing 20).accepts ∧ 20 < 7 * (1 + [(0x1C : Byte), 0x5B].length) ∧ (benchFailing 20).pinFailsAt 20) ∧
      ¬ benchBatch.accepts :=
  ⟨⟨(witness_benchFailing 0).1, by decide, (witness_benchFailing 0).2.2⟩,
   ⟨(witness_benchFailing 20).1, by decide, (witness_benchFailing 20).2.2⟩, fun h => nomatch h.2.2⟩

/-- ResetFailsAtStep: the first step, and V-E10, the last. -/
theorem witness_ResetFailsAtStep :
    ((benchFailing 0).fatal = none ∧ 0 < 8 ∧ (benchFailing 0).pinFailsAt 0) ∧
      ((benchFailing 7).fatal = none ∧ 7 < 8 ∧ (benchFailing 7).pinFailsAt 7) :=
  ⟨⟨rfl, by decide, (witness_benchFailing 0).2.2⟩, ⟨rfl, by decide, (witness_benchFailing 7).2.2⟩⟩

/-- ReadFailsAtStep: the sample itself fails, and the step after it. -/
theorem witness_ReadFailsAtStep :
    ((benchFailing 4).accepts ∧ 4 < 7 ∧ (benchFailing 4).pinFailsAt 4) ∧
      ((benchFailing 5).accepts ∧ 5 < 7 ∧ (benchFailing 5).pinFailsAt 5) ∧
      ((benchFailing 6).accepts ∧ 6 < 7 ∧ (benchFailing 6).pinFailsAt 6) :=
  ⟨⟨(witness_benchFailing 4).1, by decide, (witness_benchFailing 4).2.2⟩,
   ⟨(witness_benchFailing 5).1, by decide, (witness_benchFailing 5).2.2⟩,
   ⟨(witness_benchFailing 6).1, by decide, (witness_benchFailing 6).2.2⟩⟩

/-- RefreshFailsAtStep: the first step, and the last of a rectangle of one column. -/
theorem witness_RefreshFailsAtStep :
    0 < (⟨5, 2, 3, 1⟩ : Rect).w ∧ 0 < (⟨5, 2, 3, 1⟩ : Rect).h ∧
      ((benchFailing 0).accepts ∧ (benchFailing 0).pinFailsAt 0) ∧
      ((benchFailing 57).accepts ∧ (benchFailing 57).pinFailsAt 57 ∧
        rectInBuffer (benchFailing 57).cfg (alignX ⟨5, 2, 3, 1⟩ 4) = true ∧
        57 < 52 + 3 * (streamBytes (benchFailing 57).cfg (benchFailing 57).fb (alignX ⟨5, 2, 3, 1⟩ 4)).length) :=
  ⟨by decide, by decide, ⟨(witness_benchFailing 0).1, (witness_benchFailing 0).2.2⟩, (witness_benchFailing 57).1,
   (witness_benchFailing 57).2.2, by decide +kernel, by rw [length_streamBytes]; decide⟩

/-- OperationsNeverWriteBuffer, TraceIsAppendOnly, StepKeepsInvariant: a step that answers. -/
theorem witness_steps :
    (∃ t, exec .writeRam bench = .next t) ∧ (∃ t, step (bench.issue .writeRam) = .next t) ∧
      (State.reset.Inv ∧ ∃ t, step State.reset = .next t) :=
  ⟨⟨_, rfl⟩, ⟨_, rfl⟩,
   ⟨rfl, fun _ => Nat.zero_le 15, fun _ => rfl, nofun, fun _ => ⟨rfl, rfl, rfl, nofun, nofun⟩, fun h => absurd rfl h, rfl⟩,
   _, rfl⟩

/-- StepRunsDecodedInstruction: a word, a placed operation, and no move. -/
theorem witness_StepRunsDecodedInstruction :
    decodeTableWord 8 0x5C = some .writeRam ∧ (bench.issue .writeRam).script = .op .writeRam :: [] ∧
      bench.script = [] ∧ bench.fatal = none := ⟨by decide +kernel, rfl, rfl, rfl⟩

theorem witness_DrawingChangesBufferOnly :
    State.script { bench with script := [.draw (.setPixel 255 63 1)] } = .draw (.setPixel 255 63 1) :: [] ∧
      ∃ t, step { bench with script := [.draw (.setPixel 255 63 1)] } = .next t := ⟨rfl, _, rfl⟩

/-- RectDrawsBorder: the whole buffer, and a single pixel. -/
theorem witness_RectDrawsBorder :
    State.script { bench with script := [.draw (.rect ⟨255, 63, 1, 1⟩ 9)] } = .draw (.rect ⟨255, 63, 1, 1⟩ 9) :: [] ∧
      bench.seq = .idle ∧ bench.fb.wf = true ∧ 0 < (⟨255, 63, 1, 1⟩ : Rect).w ∧ 0 < (⟨255, 63, 1, 1⟩ : Rect).h ∧
      rectInBuffer bench.cfg ⟨255, 63, 1, 1⟩ = true ∧ rectInBuffer bench.cfg ⟨0, 0, 256, 64⟩ = true :=
  ⟨rfl, rfl, rfl, by decide, by decide, by decide +kernel, by decide +kernel⟩

/-- CommandBoundaries: a command with and without a batch after it, the bus driven and not, and a read. -/
theorem witness_CommandBoundaries :
    (bench.accepts ∧ bench.pinsAnswerOk (7 * (1 + [(0x12 : Byte)].length))) ∧
      (batchAfterCommand.Inv ∧ batchAfterCommand.inBatch ∧ batchAfterCommand.pinsAnswerOk 3 ∧
        framesOf batchAfterCommand.transfers = [] ++ [⟨some 0x5C, []⟩]) ∧
      Config.documented.opcSetGpio ≠ 0x5C := by
  refine ⟨witness_bench _, ⟨⟨rfl, fun _ => Nat.zero_le 15, fun _ => rfl, fun _ => ⟨rfl, rfl, rfl⟩,
      fun _ => ⟨rfl, rfl, rfl, nofun, nofun⟩, fun h => absurd rfl h, by decide +kernel⟩, ⟨rfl, rfl, rfl⟩,
      fun _ a h => by simp [batchAfterCommand, bench, State.reset] at h, by decide +kernel⟩, by decide⟩

/-- SentRemapModeStaysInTrace: a state where `SetRemapMode` was sent, and a step from it. -/
theorem witness_SentRemapModeStaysInTrace :
    (bench.accepts ∧ bench.pinsAnswerOk 21) ∧
      ∃ s t, exec (.setRemapMode false false true true false true) bench = .next s ∧ s.remapModeSent ∧
        step s = .next t :=
  ⟨witness_bench 21, _, _, rfl, ⟨_, List.mem_singleton.2 rfl, _, _, [], rfl⟩, rfl⟩

end Sys2Proof.Tests
end

section
/-! # Floor and ceiling division (R16)

Each division is characterised by one adjunction with multiplication by the divisor; the two bounds of R16 are its
instance at the quotient itself and at any other `q`. -/

namespace Sys2Proof.Machine

theorem le_floorDiv_iff {a n q : Int} (hn : 0 < n) : q ≤ floorDiv a n ↔ q * n ≤ a :=
  Int.le_ediv_iff_mul_le hn

theorem ceilDiv_le_iff {a n q : Int} (hn : 0 < n) : ceilDiv a n ≤ q ↔ a ≤ q * n :=
  calc ceilDiv a n ≤ q
    _ ↔ -q ≤ -a / n := neg_le
    _ ↔ -q * n ≤ -a := Int.le_ediv_iff_mul_le hn
    _ ↔ a ≤ q * n := by rw [Int.neg_mul, neg_le_neg_iff]

/-- Settles O27: both bounds of each quotient are its adjunction, and the two examples are evaluated. -/
theorem floorAndCeilingDivision : Obligations.FloorAndCeilingDivision := by
  refine ⟨fun a n hn => ⟨?_, ?_, ?_, ?_⟩, by decide, by decide⟩
  · exact (le_floorDiv_iff hn).1 le_rfl
  · exact fun q => (le_floorDiv_iff hn).2
  · exact (ceilDiv_le_iff hn).1 le_rfl
  · exact fun q => (ceilDiv_le_iff hn).2

end Sys2Proof.Machine
end

section
/-! # The end of a batch (R157, R159)

`multi_write_begin` and `multi_write_end` answer the states `batchBegun` and `batchEnded`; the empty batch is the one
after the other. -/

namespace Sys2Proof.Machine

/-- After a completed `multi_write_begin` (R157). -/
def State.batchBegun (s : State) : State :=
  { s.completed { s.pins with dc := some .high, cs := some .low } (beginEvents s.cfg.delays) 2 .ok with
    batchOpen := true }

/-- After a completed `multi_write_end` (R159). -/
def State.batchEnded (s : State) : State :=
  { s.completed { s.pins with cs := some .high } [.pin .cs .high] 1 .ok with batchOpen := false }

variable {s : State}

@[simp] theorem State.batchBegun_trace : s.batchBegun.trace = s.trace ++ beginEvents s.cfg.delays := rfl
@[simp] theorem State.batchEnded_trace : s.batchEnded.trace = s.trace ++ [.pin .cs .high] := rfl

/-- Raising `CS` records no transfer (R47). -/
@[simp] theorem transfersFrom_csHigh (r : Replay) : transfersFrom r [.pin .cs .high] = [] := rfl

@[simp] theorem State.batchBegun_transfers : s.batchBegun.transfers = s.transfers := by
  simp [State.transfers, transfersOf_append]

@[simp] theorem State.batchEnded_transfers : s.batchEnded.transfers = s.transfers := by
  simp [State.transfers, transfersOf_append]

theorem State.batchBegun_inBatch (h : s.accepts) : s.batchBegun.inBatch := by
  obtain ⟨hfatal, hready, -⟩ := h
  exact ⟨hfatal, hready, rfl⟩

/-- Of `m + n` ok answers the first `m` are ok. -/
theorem pinsAnswerOk_of_add {m n : Nat} (h : s.pinsAnswerOk (m + n)) : s.pinsAnswerOk m :=
  fun hp a ha => h hp a (List.take_subset_take_left _ (Nat.le_add_right m n) ha)

/-- The begin asks twice; the ok answers after those are left (R157). -/
theorem State.batchBegun_pinsAnswerOk {n : Nat} (h : s.pinsAnswerOk (2 + n)) : s.batchBegun.pinsAnswerOk n := by
  intro hp a ha
  have ha : a ∈ (s.gpio.take (2 + n)).drop 2 := by rwa [← List.take_drop]
  exact h hp a (List.mem_of_mem_drop ha)

theorem exec_multiWriteBegin_ok (hs : s.accepts) (h : s.pinsAnswerOk 2) :
    exec .multiWriteBegin s = .next s.batchBegun := by
  rw [exec_of_admitted (i := .multiWriteBegin) (refuseSingle_none hs) rfl]
  exact complete_ok 0 (noSample_beginSteps s.cfg) h

theorem exec_multiWriteEnd_ok (hs : s.inBatch) (h : s.pinsAnswerOk 1) :
    exec .multiWriteEnd s = .next s.batchEnded := by
  rw [exec_of_admitted (i := .multiWriteEnd) (refuseBatch_none hs) rfl]
  exact complete_ok 0 noSample_endSteps h

theorem exec_multiWriteEnd_fails (hs : s.inBatch) (h : s.pinFailsAt 0) :
    exec .multiWriteEnd s = .next (s.abortedAt 0 [.pin .cs .high]) := by
  rw [exec_of_admitted (i := .multiWriteEnd) (refuseBatch_none hs) rfl]
  exact complete_fails 0 noSample_endSteps h Nat.one_pos

theorem refuseBatch_of_accepts (h : s.accepts) : refuseBatch s = some .batchOrder := by
  obtain ⟨hfatal, hready, hclosed⟩ := h
  simp [refuseBatch, refuseSession, refuseHalted, hfatal, hready, hclosed]

theorem exec_multiWriteEnd_refused (h : s.accepts) : exec .multiWriteEnd s = .refused .batchOrder := by
  simp [exec_eq, refusalOf, refuseBatch_of_accepts h]

/-- Settles O7: one lemma per end of `multi_write_end`; the empty batch takes two of its three answers at the begin
and one at the end. -/
theorem batchEndCompletes : Obligations.BatchEndCompletes := by
  refine ⟨fun _ => exec_multiWriteEnd_ok, fun _ => exec_multiWriteEnd_fails, fun _ => exec_multiWriteEnd_refused, ?_⟩
  intro s hs h
  have hbegin : exec .multiWriteBegin s = .next s.batchBegun :=
    exec_multiWriteBegin_ok hs (pinsAnswerOk_of_add (n := 1) h)
  have hend : exec .multiWriteEnd s.batchBegun = .next s.batchBegun.batchEnded :=
    exec_multiWriteEnd_ok (State.batchBegun_inBatch hs) (State.batchBegun_pinsAnswerOk (n := 1) h)
  exact ⟨_, _, hbegin, hend, by simp, by simp, rfl⟩

end Sys2Proof.Machine
end

section
/-! # The operand fields of a command's bytes on naturals (R96 to R100)

A mask of `k` low bits is the residue modulo `2^k` (R97); a formula that is not masked is evaluated on naturals and
truncated to 8 bits (R98). -/

namespace Sys2Proof

theorem and_lowMask_eq_mod (n : Byte) (k : Nat) :
    n &&& BitVec.ofNat 8 (2 ^ k - 1) = BitVec.ofNat 8 (n.toNat % 2 ^ k) := by
  rw [← Nat.and_two_pow_sub_one_eq_mod, BitVec.ofNat_and, BitVec.ofNat_toNat, BitVec.setWidth_eq]

/-- Truncation commutes with a left shift: both drop the bits above the byte (R98). -/
theorem ofNat_shiftLeft (a k : Nat) : BitVec.ofNat 8 (a <<< k) = BitVec.ofNat 8 a <<< k := by
  apply BitVec.eq_of_toNat_eq
  simp [Nat.shiftLeft_eq]

theorem and_0x7F_eq_mod (n : Byte) : n &&& 0x7F = BitVec.ofNat 8 (n.toNat % 128) := and_lowMask_eq_mod n 7
theorem and_0x1F_eq_mod (n : Byte) : n &&& 0x1F = BitVec.ofNat 8 (n.toNat % 32) := and_lowMask_eq_mod n 5
theorem and_0xF_eq_mod (n : Byte) : n &&& 0xF = BitVec.ofNat 8 (n.toNat % 16) := and_lowMask_eq_mod n 4
theorem and_0x07_eq_mod (n : Byte) : n &&& 0x07 = BitVec.ofNat 8 (n.toNat % 8) := and_lowMask_eq_mod n 3

/-- The two fields of a byte do not overlap, so their union is their sum (R185, R194). -/
theorem nibbles_eq (lo hi : Byte) :
    nibbles lo hi = BitVec.ofNat 8 (lo.toNat % 16 + 16 * (hi.toNat % 16)) := by
  have hdisjoint : lo.toNat % 16 + 16 * (hi.toNat % 16) = (hi.toNat % 16) <<< 4 ||| lo.toNat % 16 := by
    rw [← Nat.shiftLeft_add_eq_or_of_lt (Nat.mod_lt _ (by decide)), Nat.shiftLeft_eq]
    omega
  calc nibbles lo hi
    _ = (hi &&& 0xF) <<< 4 ||| (lo &&& 0xF) := BitVec.or_comm _ _
    _ = BitVec.ofNat 8 ((hi.toNat % 16) <<< 4 ||| lo.toNat % 16) := by
      rw [and_0xF_eq_mod, and_0xF_eq_mod, BitVec.ofNat_or, ofNat_shiftLeft]
    _ = BitVec.ofNat 8 (lo.toNat % 16 + 16 * (hi.toNat % 16)) := by rw [hdisjoint]

/-- A residue modulo 128 is not negative, so the integer's byte is the natural's (R198, R199). -/
theorem windowField_eq (a : Int) : windowField a = BitVec.ofNat 8 (a % 128).toNat := by
  rw [windowField, ← BitVec.ofInt_natCast, Int.toNat_of_nonneg (Int.emod_nonneg a (by decide))]

theorem gpioByte_eq (g0 g1 : Byte) : gpioByte g0 g1 = BitVec.ofNat 8 (g0.toNat ||| g1.toNat <<< 2) := by
  simp [gpioByte, BitVec.ofNat_or, ofNat_shiftLeft]

theorem vslByte_eq (vsl : Byte) : vslByte vsl = BitVec.ofNat 8 (0xA0 ||| vsl.toNat) := by
  simp [vslByte, BitVec.ofNat_or]

theorem qualityByte_eq (quality : Byte) : qualityByte quality = BitVec.ofNat 8 (0x05 ||| quality.toNat <<< 3) := by
  simp [qualityByte, BitVec.ofNat_or, ofNat_shiftLeft]

theorem setCommandLock_args (lock : Bool) :
    (Command.setCommandLock lock).args = [if lock then 0x16 else 0x12] := by
  cases lock <;> rfl

theorem setRemapMode_args : ∀ inc colRemap nibbleRemap scanDir splitOddEven dualCom : Bool,
    (Command.setRemapMode inc colRemap nibbleRemap scanDir splitOddEven dualCom).args =
      [BitVec.ofNat 8 (inc.toNat + 2 * colRemap.toNat + 4 * nibbleRemap.toNat + 16 * scanDir.toNat +
        32 * splitOddEven.toNat), BitVec.ofNat 8 (1 + 16 * dualCom.toNat)] := by
  decide

theorem setDisplayOn_opcode (cfg : Config) (enable : Bool) :
    (Command.setDisplayOn enable).opcode cfg = if enable then 0xAF else 0xAE := by
  cases enable <;> rfl

/-- Only `SetGpio` reads a parameter (R181). -/
theorem Command.bytes_eq_of_not_setGpio {c : Command} (hc : ∀ g0 g1, c ≠ .setGpio g0 g1) (cfg cfg' : Config) :
    c.bytes cfg = c.bytes cfg' := by
  cases c with
  | setGpio g0 g1 => exact absurd rfl (hc g0 g1)
  | _ => rfl

theorem Command.bytes_eq_of_opcSetGpio {cfg cfg' : Config} (c : Command) (h : cfg.opcSetGpio = cfg'.opcSetGpio) :
    c.bytes cfg = c.bytes cfg' := by
  cases c with
  | setGpio g0 g1 => exact congrArg (· :: _) h
  | _ => rfl

end Sys2Proof
end

section
/-! # The command encoder (R180 to R208)

Every command of the table answers what `raw_command` answers on its opcode and its arguments; so one theorem about
`raw_command` completes all of them, and each row is left with its bytes. -/

namespace Sys2Proof.Machine

variable {s : State}

/-! ## `raw_command` -/

@[simp] theorem length_writeEvents (d : DelayCounts) (type : TxType) (b : Byte) :
    (writeEvents d type b).length = 10 := rfl

/-- Ten events for each byte (R155, R180). -/
@[simp] theorem length_frameEvents (d : DelayCounts) (opcode : Byte) (args : List Byte) :
    (frameEvents d opcode args).length = 10 * (1 + args.length) := by
  simp [frameEvents, List.length_flatMap]
  omega

@[simp] theorem State.sentFrame_trace (opcode : Byte) (args : List Byte) :
    (s.sentFrame opcode args).trace = s.trace ++ frameEvents s.cfg.delays opcode args := rfl

@[simp] theorem State.sentFrame_transfers (opcode : Byte) (args : List Byte) :
    (s.sentFrame opcode args).transfers =
      s.transfers ++ ⟨.w, some .low, some opcode⟩ :: args.map fun a => ⟨.w, some .high, some a⟩ := by
  simp [State.transfers, transfersOf_append]

theorem exec_rawCommand_ok {opcode : Byte} {args : List Byte} (hs : s.accepts)
    (h : s.pinsAnswerOk (7 * (1 + args.length))) :
    exec (.rawCommand opcode args) s = .next (s.sentFrame opcode args) := by
  have hok : s.pinsAnswerOk (asks (rawSteps s.cfg opcode args)) := by simpa using h
  rw [exec_of_admitted (i := .rawCommand opcode args) (refuseSingle_none hs) rfl]
  refine (complete_ok 0 (noSample_rawSteps s.cfg opcode args) hok).trans ?_
  simp [State.sentFrame, State.completed, resultOf]

theorem exec_rawCommand_fails {opcode : Byte} {args : List Byte} {n : Nat} (hs : s.accepts)
    (hn : n < 7 * (1 + args.length)) (h : s.pinFailsAt n) :
    exec (.rawCommand opcode args) s = .next (s.abortedAt n (frameEvents s.cfg.delays opcode args)) := by
  have hasks : n < asks (rawSteps s.cfg opcode args) := by simpa using hn
  rw [exec_of_admitted (i := .rawCommand opcode args) (refuseSingle_none hs) rfl, ← eventsWith_rawSteps 0]
  exact complete_fails 0 (noSample_rawSteps s.cfg opcode args) h hasks

theorem exec_rawCommand_refused {opcode : Byte} {args : List Byte} (hs : ¬ s.accepts) :
    ∃ r, exec (.rawCommand opcode args) s = .refused r := by
  cases hr : refuseSingle s with
  | none => exact absurd (accepts_of_refuseSingle hr) hs
  | some r => exact ⟨r, by simp [exec_eq, refusalOf, hr]⟩

/-- Settles O11: one lemma per end of `raw_command`; what it adds to the traces is read off the frame's events. -/
theorem rawCommandCompletes : Obligations.RawCommandCompletes := by
  intro opcode args s
  refine ⟨fun hs h => ?_, fun n => exec_rawCommand_fails, exec_rawCommand_refused⟩
  exact ⟨_, exec_rawCommand_ok hs h, rfl, by simp, State.sentFrame_transfers opcode args⟩

/-! ## Commands -/

/-- Every row of a command issues it; `command(c)` does so too (R2, R181). -/
theorem exec_eq_issueCommand {i : Instr} {c : Command} (h : i.toCommand = some c) : exec i s = issueCommand i c s := by
  cases i <;> cases h <;> rfl

theorem modeInDomain_iff {mode : Byte} : modeInDomain mode = true ↔ 4 ≤ mode.toNat ∧ mode.toNat ≤ 7 := by
  simp [modeInDomain]

/-- Only `SetMode` has an operand to refuse (R182). -/
theorem refuseOperand_none {c : Command} (h : ∀ mode, c = .setMode mode → 4 ≤ mode.toNat ∧ mode.toNat ≤ 7) :
    refuseOperand c = none := by
  cases c with
  | setMode mode => simp [refuseOperand, modeInDomain_iff.2 (h mode rfl)]
  | _ => rfl

/-- A command in its domain answers what `raw_command` answers on its bytes: its steps are the same, and an answer
does not depend on the name the operation was issued under (R181). -/
theorem exec_eq_rawCommand {i : Instr} {c : Command} (h : i.toCommand = some c) (hc : refuseOperand c = none) :
    exec i s = exec (.rawCommand (c.opcode s.cfg) c.args) s :=
  calc exec i s
    _ = issueCommand i c s := exec_eq_issueCommand h
    _ = admitted (refuseSingle s) (complete i (rawSteps s.cfg (c.opcode s.cfg) c.args) .ok s) := by
      rw [issueCommand, hc, admitted_none, commandSteps_eq]
    _ = exec (.rawCommand (c.opcode s.cfg) c.args) s := by
      rw [complete_name i (.rawCommand (c.opcode s.cfg) c.args)]; rfl

/-- A command of the given bytes, in its domain, leaves them sent (R181, R182). -/
theorem exec_sendsFrame {i : Instr} {c : Command} {opcode : Byte} {args : List Byte} (h : i.toCommand = some c)
    (hc : refuseOperand c = none) (ho : c.opcode s.cfg = opcode) (ha : c.args = args) (hs : s.accepts)
    (hok : s.pinsAnswerOk (7 * (1 + args.length))) :
    exec i s = .next (s.sentFrame opcode args) := by
  rw [exec_eq_rawCommand h hc, ho, ha, exec_rawCommand_ok hs hok]

/-- Settles O12: a command's bytes are those of `raw_command`, and only the opcode of `SetGpio` is a parameter. -/
theorem commandIsRawCommand : Obligations.CommandIsRawCommand := by
  intro c s hdomain
  have hc : refuseOperand c = none := refuseOperand_none hdomain
  exact ⟨exec_eq_rawCommand rfl hc, exec_sendsFrame rfl hc rfl rfl,
    fun cfg hgpio => Command.bytes_eq_of_not_setGpio hgpio cfg s.cfg,
    fun cfg => Command.bytes_eq_of_opcSetGpio c⟩

/-- Settles O14: none of them has arguments, and the flag of `SetDisplayOn` is bit 0 of its opcode. -/
theorem oneByteCommandsComplete : Obligations.OneByteCommandsComplete := by
  intro s hs h
  refine ⟨?_, ?_, ?_, ?_, ?_, fun enable => ?_⟩
  · exact exec_sendsFrame rfl rfl rfl rfl hs h
  · exact exec_sendsFrame rfl rfl rfl rfl hs h
  · exact exec_sendsFrame rfl rfl rfl rfl hs h
  · exact exec_sendsFrame rfl rfl rfl rfl hs h
  · exact exec_sendsFrame rfl rfl rfl rfl hs h
  · exact exec_sendsFrame rfl rfl (setDisplayOn_opcode s.cfg enable) rfl hs h

/-- Settles O15: each argument is one masked field, or two that do not overlap. -/
theorem maskedCommandsComplete : Obligations.MaskedCommandsComplete := by
  intro s hs h
  refine ⟨fun div freq => ?_, fun n => ?_, fun n => ?_, fun n => ?_, fun v => ?_, fun p1 p2 => ?_, fun v => ?_,
    fun v => ?_, fun p => ?_⟩
  · exact exec_sendsFrame rfl rfl rfl (by rw [Command.args, nibbles_eq]) hs h
  · exact exec_sendsFrame rfl rfl rfl (by rw [Command.args, and_0x7F_eq_mod]) hs h
  · exact exec_sendsFrame rfl rfl rfl (by rw [Command.args, and_0x7F_eq_mod]) hs h
  · exact exec_sendsFrame rfl rfl rfl (by rw [Command.args, and_0x7F_eq_mod]) hs h
  · exact exec_sendsFrame rfl rfl rfl (by rw [Command.args, and_0xF_eq_mod]) hs h
  · exact exec_sendsFrame rfl rfl rfl (by rw [Command.args, nibbles_eq]) hs h
  · exact exec_sendsFrame rfl rfl rfl (by rw [Command.args, and_0x1F_eq_mod]) hs h
  · exact exec_sendsFrame rfl rfl rfl (by rw [Command.args, and_0x07_eq_mod]) hs h
  · exact exec_sendsFrame rfl rfl rfl (by rw [Command.args, and_0xF_eq_mod]) hs h

/-- Settles O16: the flag of `SetCommandLock` is bit 2 of its byte, and the union of `SetGpio` is truncated. -/
theorem unmaskedCommandsComplete : Obligations.UnmaskedCommandsComplete := by
  intro s hs h
  refine ⟨fun lock => ?_, fun mode => ?_, fun v => ?_, fun g0 g1 => ?_⟩
  · exact exec_sendsFrame rfl rfl rfl (setCommandLock_args lock) hs h
  · exact exec_sendsFrame rfl rfl rfl rfl hs h
  · exact exec_sendsFrame rfl rfl rfl rfl hs h
  · exact exec_sendsFrame rfl rfl rfl (by rw [Command.args, gpioByte_eq]) hs h

/-- Settles O17: the bytes are flags, unmasked unions, residues of integers, and masked fields. -/
theorem twoArgumentCommandsComplete : Obligations.TwoArgumentCommandsComplete := by
  intro s hs h
  refine ⟨fun inc colRemap nibbleRemap scanDir splitOddEven dualCom => ?_, fun vsl quality => ?_,
    fun first last => ?_, fun first last => ?_, fun first last => ?_⟩
  · exact exec_sendsFrame rfl rfl rfl
      (setRemapMode_args inc colRemap nibbleRemap scanDir splitOddEven dualCom) hs h
  · exact exec_sendsFrame rfl rfl rfl (by rw [Command.args, vslByte_eq, qualityByte_eq]) hs h
  · exact exec_sendsFrame rfl rfl rfl (by rw [Command.args, windowField_eq, windowField_eq]) hs h
  · exact exec_sendsFrame rfl rfl rfl (by rw [Command.args, windowField_eq, windowField_eq]) hs h
  · exact exec_sendsFrame rfl rfl rfl (by rw [Command.args, and_0x7F_eq_mod, and_0x7F_eq_mod]) hs h

end Sys2Proof.Machine
end

section
/-! # The packing of pixels (R237, R63)

A packed byte is a byte of two nibbles that do not overlap: the right pixel is the low one, the left pixel the high
one. -/

namespace Sys2Proof.Machine

theorem pack_eq_nibbles (pa pb : Byte) : pack pa pb = nibbles pb pa := BitVec.or_comm _ _

/-- The sum of two nibbles is a byte, so nothing is truncated. -/
theorem toNat_pack (pa pb : Byte) : (pack pa pb).toNat = 16 * (pa.toNat % 16) + pb.toNat % 16 := by
  rw [pack_eq_nibbles, nibbles_eq, BitVec.toNat_ofNat]
  omega

/-- The masks keep pixels of at most 15, and the two lanes do not overlap. -/
theorem toNat_pack_of_le {pa pb : Byte} (ha : pa.toNat ≤ 15) (hb : pb.toNat ≤ 15) :
    (pack pa pb).toNat = pa.toNat <<< 4 ||| pb.toNat := by
  have hlow : pb.toNat < 2 ^ 4 := by omega
  rw [toNat_pack, ← Nat.shiftLeft_add_eq_or_of_lt hlow, Nat.shiftLeft_eq]
  omega

/-- Only a wide right pixel leaves a choice (R238). -/
theorem streamByte_of_le {pa pb : Byte} (hb : pb.toNat ≤ 15) : streamByte pa pb = pack pa pb := if_pos hb

/-- Settles O34: the sum of the two nibbles, the source's formula for pixels of at most 15, and the group's two
bytes, each with no choice left. -/
theorem pixelsArePackedInNibbles : Obligations.PixelsArePackedInNibbles := by
  refine ⟨toNat_pack, fun _ _ => toNat_pack_of_le, fun cfg fb x0 y hfirst hlast => ?_⟩
  rw [groupBytes, streamByte_of_le hfirst, streamByte_of_le hlast]

end Sys2Proof.Machine
end

section
/-! # Decoder and encoder (R94 to R103, R209)

Each way round is one lemma over the rows of the table: the row that answers has the bytes it read, and the bytes of a
command are those of its row. -/

namespace Sys2Proof

/-! ## Bits of the argument bytes -/

/-- The bits under two masks that cover the byte are all its bits. -/
theorem and_or_and_of_cover {m m' : Byte} (hcover : m ||| m' = BitVec.allOnes 8) (a : Byte) :
    a &&& m ||| a &&& m' = a := by
  rw [← BitVec.and_or_distrib_left, hcover, BitVec.and_allOnes]

/-- A byte whose reserved bits are clear is kept by the mask of the other bits (R97, R102). -/
theorem and_eq_self_of_reserved {m m' a : Byte} (hcover : m ||| m' = BitVec.allOnes 8) (h : a &&& m' = 0) :
    a &&& m = a := by
  conv_rhs => rw [← and_or_and_of_cover hcover a, h]
  exact BitVec.or_zero.symm

/-- A byte is its fixed bits and the others (R102). -/
theorem fixed_or_and {m m' c a : Byte} (h : a &&& m = c) (hcover : m ||| m' = BitVec.allOnes 8) :
    c ||| a &&& m' = a := by
  rw [← h, and_or_and_of_cover hcover]

/-- A mask clears the bits outside it (R102). -/
theorem and_and_eq_zero {m m' : Byte} (hdisjoint : m &&& m' = 0) (a : Byte) : a &&& m &&& m' = 0 := by
  rw [BitVec.and_assoc, hdisjoint]
  exact BitVec.and_zero

/-- A flag put back at its place is that bit of the byte. -/
theorem bitByte_getLsbD (a : Byte) (k : Nat) : bitByte (a.getLsbD k) <<< k = a &&& BitVec.twoPow 8 k := by
  rw [BitVec.and_twoPow]
  cases a.getLsbD k <;> simp [bitByte, BitVec.twoPow]

theorem isField7_iff {a : Byte} : isField7 a = true ↔ a &&& 0x80 = 0 := by simp [isField7]

theorem isField7_and_0x7F (a : Byte) : isField7 (a &&& 0x7F) = true :=
  isField7_iff.2 (and_and_eq_zero (by decide) a)

theorem and_0x7F_of_isField7 {a : Byte} (h : isField7 a = true) : a &&& 0x7F = a :=
  and_eq_self_of_reserved (by decide) (isField7_iff.1 h)

theorem windowField_toNat (a : Int) : ((windowField a).toNat : Int) = a % 128 := by
  have hlow := Int.emod_nonneg a (b := 128) (by decide)
  have hhigh := Int.emod_lt_of_pos a (b := 128) (by decide)
  rw [windowField_eq, BitVec.toNat_ofNat]
  omega

theorem windowField_natCast (a : Byte) : windowField a.toNat = a &&& 0x7F := by
  rw [windowField_eq, and_0x7F_eq_mod]
  congr 1

theorem isField7_windowField (a : Int) : isField7 (windowField a) = true := by
  rw [← windowField_carried, ← windowField_toNat, windowField_natCast]
  exact isField7_and_0x7F _

theorem nibbles_split (a : Byte) : nibbles (a &&& 0xF) (a >>> 4) = a := by
  rw [nibbles_eq, and_0xF_eq_mod]
  apply BitVec.eq_of_toNat_eq
  have := a.isLt
  simp [Nat.shiftRight_eq_div_pow]
  omega

theorem nibbles_low (lo hi : Byte) : nibbles lo hi &&& 0xF = lo &&& 0xF := by
  rw [nibbles_eq, and_0xF_eq_mod, and_0xF_eq_mod, BitVec.toNat_ofNat]
  congr 1
  omega

theorem nibbles_high (lo hi : Byte) : nibbles lo hi >>> 4 = hi &&& 0xF := by
  rw [nibbles_eq, and_0xF_eq_mod]
  apply BitVec.eq_of_toNat_eq
  simp [Nat.shiftRight_eq_div_pow]
  omega

theorem setCommandLock_byte {a : Byte} (h : a &&& 0xFB = 0x12) : 0x12 ||| bitByte (a.getLsbD 2) <<< 2 = a := by
  rw [bitByte_getLsbD]
  exact fixed_or_and h (by decide)

theorem remapByte1_getLsbD {a : Byte} (h : a &&& 0xC8 = 0) :
    remapByte1 (a.getLsbD 0) (a.getLsbD 1) (a.getLsbD 2) (a.getLsbD 4) (a.getLsbD 5) = a := by
  have hflag : bitByte (a.getLsbD 0) = a &&& BitVec.twoPow 8 0 := by rw [← bitByte_getLsbD, BitVec.shiftLeft_zero]
  rw [remapByte1, hflag]
  simp only [bitByte_getLsbD, ← BitVec.and_or_distrib_left]
  exact and_eq_self_of_reserved (by decide) h

theorem remapByte2_getLsbD {b : Byte} (h : b &&& 0xEF = 0x01) : remapByte2 (b.getLsbD 4) = b := by
  rw [remapByte2, bitByte_getLsbD]
  exact fixed_or_and h (by decide)

theorem vslByte_and {a : Byte} (h : a &&& 0xA0 = 0xA0) : vslByte (a &&& 0x5F) = a :=
  fixed_or_and h (by decide)

theorem qualityByte_shift {b : Byte} (h : b &&& 0x07 = 0x05) : qualityByte (b >>> 3) = b := by
  have hshift : b >>> 3 <<< 3 = b &&& 0xF8 := by revert b; decide
  rw [qualityByte, hshift]
  exact fixed_or_and h (by decide)

/-! ## From a row to its bytes -/

section bytes

variable {cfg : Config} {opcode : Byte} {args : List Byte} {i j : Instr} {o : Nat}

theorem encode_eq_of_toCommand {c : Command} (h : i.toCommand = some c) : encode cfg i = some (c.bytes cfg) := by
  cases i <;> cases h <;> rfl

/-- The bytes of a row, from its opcode and its arguments (R182). -/
theorem encode_eq {c : Command} (h : i.toCommand = some c) (ho : c.opcode cfg = opcode) (ha : c.args = args) :
    encode cfg i = some (opcode :: args) := by
  rw [encode_eq_of_toCommand h, Command.bytes, ho, ha]

theorem encode_noArg (ho : opcode.toNat = o) (h : noArg j args = some i)
    (hrow : encode cfg j = some [BitVec.ofNat 8 o]) : encode cfg i = some (opcode :: args) := by
  obtain ⟨rfl, rfl⟩ := noArg_eq_some.1 h
  rw [hrow, ← ho, BitVec.ofNat_toNat, BitVec.setWidth_eq]

theorem encode_oneArg {row : Byte → Option Instr} (ho : opcode.toNat = o) (h : oneArg row args = some i)
    (hrow : ∀ a, row a = some i → encode cfg i = some [BitVec.ofNat 8 o, a]) :
    encode cfg i = some (opcode :: args) := by
  obtain ⟨a, rfl, ha⟩ := oneArg_eq_some.1 h
  rw [hrow a ha, ← ho, BitVec.ofNat_toNat, BitVec.setWidth_eq]

theorem encode_twoArgs {row : Byte → Byte → Option Instr} (ho : opcode.toNat = o) (h : twoArgs row args = some i)
    (hrow : ∀ a b, row a b = some i → encode cfg i = some [BitVec.ofNat 8 o, a, b]) :
    encode cfg i = some (opcode :: args) := by
  obtain ⟨a, b, rfl, hab⟩ := twoArgs_eq_some.1 h
  rw [hrow a b hab, ← ho, BitVec.ofNat_toNat, BitVec.setWidth_eq]

theorem encode_some {bytes : List Byte} (h : some j = some i) (hrow : encode cfg j = some bytes) :
    encode cfg i = some bytes :=
  Option.some.inj h ▸ hrow

/-- A row whose arguments have the fixed bits it sends (R102). -/
theorem encode_guarded {fixed : Bool} {bytes : List Byte} (h : guarded fixed j = some i)
    (hrow : fixed = true → encode cfg j = some bytes) : encode cfg i = some bytes := by
  obtain ⟨hfixed, rfl⟩ := guarded_eq_some.1 h
  exact hrow hfixed

/-- A row whose one argument keeps the bits of a field (R97, R102). -/
theorem encode_masked {c : Command} {m m' o a : Byte} (h : guarded (a &&& m' == 0) j = some i)
    (hj : j.toCommand = some c) (ho : c.opcode cfg = o) (hargs : c.args = [a &&& m])
    (hcover : m ||| m' = BitVec.allOnes 8) : encode cfg i = some [o, a] := by
  refine encode_guarded h fun hfixed => encode_eq hj ho ?_
  rw [hargs, and_eq_self_of_reserved hcover (by simpa using hfixed)]

/-- A row whose two arguments are 7-bit fields (R97, R102). -/
theorem encode_fields7 {c : Command} {o a b : Byte} (h : guarded (isField7 a && isField7 b) j = some i)
    (hj : j.toCommand = some c) (ho : c.opcode cfg = o) (hargs : c.args = [a &&& 0x7F, b &&& 0x7F]) :
    encode cfg i = some [o, a, b] := by
  refine encode_guarded h fun hfixed => encode_eq hj ho ?_
  obtain ⟨ha, hb⟩ := Bool.and_eq_true_iff.1 hfixed
  rw [hargs, and_0x7F_of_isField7 ha, and_0x7F_of_isField7 hb]

/-- The row that a byte sequence matches has exactly those bytes; the rows in the order of `decodeRow`. -/
theorem encode_of_decodeRow (h : decodeRow opcode args = some i) : encode cfg i = some (opcode :: args) := by
  unfold decodeRow at h
  split at h
  · next ho => exact encode_noArg ho h rfl
  · next ho =>
    exact encode_twoArgs ho h fun a b hi =>
      encode_fields7 hi rfl rfl (by rw [Command.args, windowField_natCast, windowField_natCast])
  · next ho => exact encode_noArg ho h rfl
  · next ho => exact encode_noArg ho h rfl
  · next ho =>
    exact encode_twoArgs ho h fun a b hi =>
      encode_fields7 hi rfl rfl (by rw [Command.args, windowField_natCast, windowField_natCast])
  · next ho =>
    refine encode_twoArgs ho h fun a b hi => encode_guarded hi fun hfixed => encode_eq rfl rfl ?_
    simp only [Bool.and_eq_true, beq_iff_eq] at hfixed
    rw [Command.args, remapByte1_getLsbD hfixed.1, remapByte2_getLsbD hfixed.2]
  · next ho => exact encode_oneArg ho h fun a hi => encode_masked hi rfl rfl rfl (by decide)
  · next ho => exact encode_oneArg ho h fun a hi => encode_masked hi rfl rfl rfl (by decide)
  · next ho => exact encode_noArg ho h rfl
  · next ho => exact encode_noArg ho h rfl
  · next ho => exact encode_noArg ho h rfl
  · next ho => exact encode_noArg ho h rfl
  · next ho => exact encode_twoArgs ho h fun a b hi => encode_fields7 hi rfl rfl rfl
  · next ho => exact encode_noArg ho h rfl
  · next ho => exact encode_oneArg ho h fun a hi => encode_some hi rfl
  · next ho => exact encode_noArg ho h rfl
  · next ho => exact encode_noArg ho h rfl
  · next ho =>
    exact encode_oneArg ho h fun a hi => encode_some hi (encode_eq rfl rfl (by rw [Command.args, nibbles_split]))
  · next ho =>
    exact encode_oneArg ho h fun a hi => encode_some hi (encode_eq rfl rfl (by rw [Command.args, nibbles_split]))
  · next ho =>
    refine encode_twoArgs ho h fun a b hi => encode_guarded hi fun hfixed => encode_eq rfl rfl ?_
    simp only [Bool.and_eq_true, beq_iff_eq] at hfixed
    rw [Command.args, vslByte_and hfixed.1, qualityByte_shift hfixed.2]
  · next ho => exact encode_oneArg ho h fun a hi => encode_masked hi rfl rfl rfl (by decide)
  · next ho =>
    obtain ⟨t, ht, rfl⟩ := Option.map_eq_some_iff.1 h
    exact encode_eq rfl (BitVec.eq_of_toNat_eq ho.symm) (grayTable?_toList ht)
  · next ho => exact encode_noArg ho h rfl
  · next ho => exact encode_oneArg ho h fun a hi => encode_masked hi rfl rfl rfl (by decide)
  · next ho => exact encode_oneArg ho h fun a hi => encode_masked hi rfl rfl rfl (by decide)
  · next ho => exact encode_oneArg ho h fun a hi => encode_some hi rfl
  · next ho => exact encode_oneArg ho h fun a hi => encode_masked hi rfl rfl rfl (by decide)
  · next ho => exact encode_oneArg ho h fun a hi => encode_masked hi rfl rfl rfl (by decide)
  · next ho =>
    refine encode_oneArg ho h fun a hi => encode_guarded hi fun hfixed => encode_eq rfl rfl ?_
    rw [Command.args, setCommandLock_byte (by simpa using hfixed)]
  · cases h

/-- What the decoder makes of a frame has exactly the bytes of the frame, on the byte of `SetGpio` too. -/
theorem encode_decodeFrame : encode cfg (decodeFrame cfg opcode args) = some (opcode :: args) := by
  unfold decodeFrame
  split
  · next hgpio =>
    split
    · rfl
    · split
      · next a => exact encode_eq rfl hgpio.symm (by rw [Command.args, gpioByte_fields])
      · rfl
  · cases h : decodeRow opcode args with
    | none => rfl
    | some i => exact encode_of_decodeRow h

end bytes

/-- What decoding an opcode byte and the bytes after it answers: the frame of as many arguments as its row has. -/
theorem decode_cons_eq_ok {cfg : Config} {opcode : Byte} {tail rest : List Byte} {i : Instr} :
    decode cfg (opcode :: tail) = .ok (i, rest) ↔
      ∃ n, argCount cfg opcode = some n ∧ n ≤ tail.length ∧ i = decodeFrame cfg opcode (tail.take n) ∧
        rest = tail.drop n := by
  simp only [decode]
  cases argCount cfg opcode with
  | none => simp
  | some n =>
    by_cases hlen : tail.length < n
    · simp [hlen]
    · simp [hlen, eq_comm, Nat.le_of_not_lt hlen]

/-- Settles O24: the decoder splits the bytes after the opcode, and its frame encodes to the part it took. -/
theorem decoderReadsExactly : Obligations.DecoderReadsExactly := by
  intro cfg bytes rest i h
  cases bytes with
  | nil => cases h
  | cons opcode tail =>
    obtain ⟨n, -, -, rfl, rfl⟩ := decode_cons_eq_ok.1 h
    exact ⟨_, encode_decodeFrame, congrArg (opcode :: ·) (List.take_append_drop n tail)⟩

/-! ## From a command to its row -/

section rows

variable {cfg : Config} {c : Command} {i : Instr}

theorem grayTable?_of_toList (t : GrayTable) : grayTable? t.toList = some t := by
  unfold grayTable?
  rw [dif_pos t.length_toList]
  rfl

/-- The fixed bits of the two display enhancement bytes are there, and the other bits are the operands (R191). -/
theorem vslByte_fixed (vsl : Byte) : vslByte vsl &&& 0xA0 = 0xA0 ∧ vslByte vsl &&& 0x5F = vsl &&& 0x5F := by
  revert vsl
  decide

theorem qualityByte_fixed (quality : Byte) :
    qualityByte quality &&& 0x07 = 0x05 ∧ qualityByte quality >>> 3 = quality &&& 0x1F := by
  revert quality
  decide

theorem remapBytes_fixed : ∀ inc colRemap nibbleRemap scanDir splitOddEven dualCom : Bool,
    decodeRow 0xA0 [remapByte1 inc colRemap nibbleRemap scanDir splitOddEven, remapByte2 dualCom] =
      some (.setRemapMode inc colRemap nibbleRemap scanDir splitOddEven dualCom) := by
  decide

theorem modeAdmitted_iff {mode : Byte} : modeAdmitted mode = true ↔ mode = 4 ∨ mode = 5 ∨ mode = 6 ∨ mode = 7 := by
  simp [modeAdmitted, or_assoc]

/-- Only `SetGpio` has no row of its own in the table of the printed opcodes (R94, R95). -/
theorem decodeRow_bytes (hwf : c.wellFormed = true) (hgpio : ∀ g0 g1, c ≠ .setGpio g0 g1) :
    decodeRow (c.opcode cfg) c.args = some c.carried := by
  cases c with
  | setCommandLock lock => cases lock <;> rfl
  | setDisplayOn enable => cases enable <;> rfl
  | setClockDivAndOscFreq div freq =>
    exact (decodeRow_setClockDivAndOscFreq _).trans (by rw [nibbles_low, nibbles_high]; rfl)
  | setMuxRatio n => exact (decodeRow_setMuxRatio _).trans (if_pos (isField7_and_0x7F n))
  | setStartLine n => exact (decodeRow_setStartLine _).trans (if_pos (isField7_and_0x7F n))
  | setOffset n => exact (decodeRow_setOffset _).trans (if_pos (isField7_and_0x7F n))
  | setRemapMode inc colRemap nibbleRemap scanDir splitOddEven dualCom => exact remapBytes_fixed ..
  | vddFunctionSelect mode => rfl
  | displayEnhancementA vsl quality =>
    obtain ⟨hvsl, hvsl'⟩ := vslByte_fixed vsl
    obtain ⟨hquality, hquality'⟩ := qualityByte_fixed quality
    refine (decodeRow_displayEnhancementA _ _).trans ?_
    rw [hvsl, hvsl', hquality, hquality']
    rfl
  | setContrastCurrent v => rfl
  | masterContrastCurrentControl v =>
    exact (decodeRow_masterContrastCurrentControl _).trans (if_pos (beq_iff_eq.2 (and_and_eq_zero (by decide) v)))
  | setPhaseLength p1 p2 =>
    exact (decodeRow_setPhaseLength _).trans (by rw [nibbles_low, nibbles_high]; rfl)
  | setPrechargeVoltage v =>
    exact (decodeRow_setPrechargeVoltage _).trans (if_pos (beq_iff_eq.2 (and_and_eq_zero (by decide) v)))
  | setVcomh v => exact (decodeRow_setVcomh _).trans (if_pos (beq_iff_eq.2 (and_and_eq_zero (by decide) v)))
  | setMode mode => rcases modeAdmitted_iff.1 hwf with rfl | rfl | rfl | rfl <;> rfl
  | setColumnAddress s e =>
    refine (decodeRow_setColumnAddress _ _).trans ?_
    rw [isField7_windowField, isField7_windowField, windowField_toNat, windowField_toNat]
    rfl
  | setRowAddress s e =>
    refine (decodeRow_setRowAddress _ _).trans ?_
    rw [isField7_windowField, isField7_windowField, windowField_toNat, windowField_toNat]
    rfl
  | writeRam => rfl
  | readRam => rfl
  | enablePartialDisplay s e =>
    refine (decodeRow_enablePartialDisplay _ _).trans ?_
    rw [isField7_and_0x7F, isField7_and_0x7F]
    rfl
  | exitPartialDisplay => rfl
  | setGpio g0 g1 => exact absurd rfl (hgpio g0 g1)
  | setSecondPrechargePeriod p =>
    exact (decodeRow_setSecondPrechargePeriod _).trans (if_pos (beq_iff_eq.2 (and_and_eq_zero (by decide) p)))
  | setGrayScaleTable t => exact congrArg (Option.map Instr.setGrayScaleTable) (grayTable?_of_toList t)
  | setDefaultGrayScaleTable => rfl
  | enableGrayScaleTable => rfl

/-- The row of a command's opcode byte has as many arguments as the command. -/
theorem rowArgCount_opcode (hwf : c.wellFormed = true) (hgpio : ∀ g0 g1, c ≠ .setGpio g0 g1) :
    rowArgCount (c.opcode cfg) = some c.args.length := by
  cases c with
  | setDisplayOn enable => cases enable <;> rfl
  | setMode mode => rcases modeAdmitted_iff.1 hwf with rfl | rfl | rfl | rfl <;> rfl
  | setGpio g0 g1 => exact absurd rfl (hgpio g0 g1)
  | setGrayScaleTable t => exact congrArg some t.length_toList.symm
  | _ => rfl

theorem rowUses_opcode (hwf : c.wellFormed = true) (hgpio : ∀ g0 g1, c ≠ .setGpio g0 g1) :
    rowUses (c.opcode cfg) = true := by
  rw [rowUses, rowArgCount_opcode hwf hgpio]
  rfl

/-- Where the first byte determines the command, `SetGpio` has a byte that no row uses, and every other command a byte
that is not that of `SetGpio` (R95, R209 d). -/
theorem opcode_ne_opcSetGpio (hwf : c.wellFormed = true) (hgpio : ∀ g0 g1, c ≠ .setGpio g0 g1)
    (hu : c.unambiguous cfg = true) : c.opcode cfg ≠ cfg.opcSetGpio := by
  simp only [Command.unambiguous, Config.gpioOpcodeFree, Bool.or_eq_true, bne_iff_ne] at hu
  rcases hu with hfree | hne
  · intro heq
    rw [← heq, rowUses_opcode hwf hgpio] at hfree
    cases hfree
  · exact hne

theorem rowUses_opcSetGpio {g0 g1 : Byte} (hu : (Command.setGpio g0 g1).unambiguous cfg = true) :
    rowUses cfg.opcSetGpio = false := by
  simpa [Command.unambiguous, Config.gpioOpcodeFree, Command.opcode] using hu

theorem decodeFrame_bytes (hwf : c.wellFormed = true) (hu : c.unambiguous cfg = true) :
    decodeFrame cfg (c.opcode cfg) c.args = c.carried := by
  by_cases hgpio : ∃ g0 g1, c = .setGpio g0 g1
  · obtain ⟨g0, g1, rfl⟩ := hgpio
    simp [decodeFrame, Command.opcode, Command.args, Command.carried, rowUses_opcSetGpio hu]
  · have hgpio : ∀ g0 g1, c ≠ .setGpio g0 g1 := fun g0 g1 h => hgpio ⟨g0, g1, h⟩
    exact (if_neg (opcode_ne_opcSetGpio hwf hgpio hu)).trans (by rw [decodeRow_bytes hwf hgpio]; rfl)

theorem argCount_bytes (hwf : c.wellFormed = true) (hu : c.unambiguous cfg = true) :
    argCount cfg (c.opcode cfg) = some c.args.length := by
  by_cases hgpio : ∃ g0 g1, c = .setGpio g0 g1
  · obtain ⟨g0, g1, rfl⟩ := hgpio
    have hnone : rowArgCount cfg.opcSetGpio = none := by simpa [rowUses] using rowUses_opcSetGpio hu
    simp [argCount, Command.opcode, Command.args, hnone]
  · have hgpio : ∀ g0 g1, c ≠ .setGpio g0 g1 := fun g0 g1 h => hgpio ⟨g0, g1, h⟩
    rw [argCount, rowArgCount_opcode hwf hgpio]

/-- The decoder takes as many bytes as the row has arguments, and leaves the rest. -/
theorem decode_append {opcode : Byte} {args : List Byte} (rest : List Byte)
    (h : argCount cfg opcode = some args.length) :
    decode cfg (opcode :: args ++ rest) = .ok (decodeFrame cfg opcode args, rest) :=
  decode_cons_eq_ok.2 ⟨args.length, h, by simp, by simp, by simp⟩

theorem decode_bytes (rest : List Byte) (hwf : c.wellFormed = true) (hu : c.unambiguous cfg = true) :
    decode cfg (c.bytes cfg ++ rest) = .ok (c.carried, rest) := by
  rw [Command.bytes, decode_append rest (argCount_bytes hwf hu), decodeFrame_bytes hwf hu]

theorem wellFormed_of_toCommand (h : i.toCommand = some c) : i.wellFormed = c.wellFormed := by
  cases i <;> cases h <;> rfl

end rows

/-- Settles O22: a command's opcode byte leads to its row, and the row reads the operands out of its bytes. -/
theorem decodeOfEncode : Obligations.DecodeOfEncode := by
  intro cfg i c rest h hwf hu
  exact ⟨_, encode_eq_of_toCommand h, decode_bytes rest (wellFormed_of_toCommand h ▸ hwf) hu⟩

/-! ## Operands in range -/

theorem and_lowMask_of_lt {n : Byte} {k : Nat} (h : n.toNat < 2 ^ k) : n &&& BitVec.ofNat 8 (2 ^ k - 1) = n := by
  rw [and_lowMask_eq_mod, Nat.mod_eq_of_lt h, BitVec.ofNat_toNat, BitVec.setWidth_eq]

/-- Without overlap the GPIO byte gives its operands back (log 33). -/
theorem gpioByte_inRange {g0 g1 : Byte} (h0 : g0 < 4) (h1 : g1 < 64) :
    gpioByte g0 g1 &&& 0x03 = g0 ∧ gpioByte g0 g1 >>> 2 = g1 := by
  have hlow : g0 &&& 0x03 = g0 := and_lowMask_of_lt (k := 2) h0
  have hlow' : g0 >>> 2 = 0 := by revert g0; decide
  have hhigh : g1 <<< 2 &&& 0x03 = 0 := by clear h1; revert g1; decide
  have hhigh' : g1 <<< 2 >>> 2 = g1 := by revert g1; decide
  rw [gpioByte, BitVec.and_comm, BitVec.and_or_distrib_left, BitVec.and_comm, hlow, BitVec.and_comm, hhigh,
    BitVec.ushiftRight_or_distrib, hlow', hhigh']
  exact ⟨BitVec.or_zero, BitVec.zero_or⟩

/-- A row whose operands fit their fields is what its bytes carry (R209 c). -/
theorem carried_of_inRange {i : Instr} {c : Command} (h : i.toCommand = some c) (hrow : i ≠ .command c)
    (hr : c.inRange = true) : c.carried = i := by
  cases i <;> cases h
  case command => exact absurd rfl hrow
  all_goals simp only [Command.inRange, Bool.and_eq_true, decide_eq_true_eq, beq_iff_eq] at hr
  case setClockDivAndOscFreq div freq =>
    exact congrArg₂ Instr.setClockDivAndOscFreq (and_lowMask_of_lt (k := 4) hr.1) (and_lowMask_of_lt (k := 4) hr.2)
  case setMuxRatio n => exact congrArg Instr.setMuxRatio (and_lowMask_of_lt (k := 7) hr)
  case setStartLine n => exact congrArg Instr.setStartLine (and_lowMask_of_lt (k := 7) hr)
  case setOffset n => exact congrArg Instr.setOffset (and_lowMask_of_lt (k := 7) hr)
  case displayEnhancementA vsl quality =>
    exact congrArg₂ Instr.displayEnhancementA (and_eq_self_of_reserved (by decide) hr.1)
      (and_lowMask_of_lt (k := 5) hr.2)
  case masterContrastCurrentControl v =>
    exact congrArg Instr.masterContrastCurrentControl (and_lowMask_of_lt (k := 4) hr)
  case setPhaseLength p1 p2 =>
    exact congrArg₂ Instr.setPhaseLength (and_lowMask_of_lt (k := 4) hr.1) (and_lowMask_of_lt (k := 4) hr.2)
  case setPrechargeVoltage v => exact congrArg Instr.setPrechargeVoltage (and_lowMask_of_lt (k := 5) hr)
  case setVcomh v => exact congrArg Instr.setVcomh (and_lowMask_of_lt (k := 3) hr)
  case setColumnAddress s e =>
    obtain ⟨⟨⟨hs, hs'⟩, he⟩, he'⟩ := hr
    exact congrArg₂ Instr.setColumnAddress (Int.emod_eq_of_lt hs hs') (Int.emod_eq_of_lt he he')
  case setRowAddress s e =>
    obtain ⟨⟨⟨hs, hs'⟩, he⟩, he'⟩ := hr
    exact congrArg₂ Instr.setRowAddress (Int.emod_eq_of_lt hs hs') (Int.emod_eq_of_lt he he')
  case enablePartialDisplay s e =>
    exact congrArg₂ Instr.enablePartialDisplay (and_lowMask_of_lt (k := 7) hr.1) (and_lowMask_of_lt (k := 7) hr.2)
  case setGpio g0 g1 =>
    obtain ⟨h0, h1⟩ := gpioByte_inRange hr.1 hr.2
    exact congrArg₂ Instr.setGpio h0 h1
  case setSecondPrechargePeriod p =>
    exact congrArg Instr.setSecondPrechargePeriod (and_lowMask_of_lt (k := 4) hr)
  all_goals rfl

theorem wellFormed_of_inRange {c : Command} (hr : c.inRange = true) : c.wellFormed = true := by
  cases c with
  | setMode mode => exact hr
  | setColumnAddress s e =>
    simp only [Command.inRange, Command.wellFormed, fitsByte, Bool.and_eq_true, decide_eq_true_eq] at hr ⊢
    omega
  | setRowAddress s e =>
    simp only [Command.inRange, Command.wellFormed, fitsByte, Bool.and_eq_true, decide_eq_true_eq] at hr ⊢
    omega
  | _ => rfl

/-- Settles O23: what the decoder answers are the operands the bytes carry, and operands in range are all carried. -/
theorem inRangeOperandsAreCarried : Obligations.InRangeOperandsAreCarried := by
  intro cfg i c rest h hrow hr hu
  refine ⟨_, encode_eq_of_toCommand h, ?_⟩
  rw [decode_bytes rest (wellFormed_of_inRange hr) hu, carried_of_inRange h hrow hr]

/-! ## Single facts of the table -/

theorem isField7_getLsbD : ∀ a : Byte, isField7 a = true → a.getLsbD 7 = false := by decide

/-- Settles O20: every argument of a 7-bit field is masked, and the two remap bytes are evaluated on all flags. -/
theorem reservedBitsAreFixed : Obligations.ReservedBitsAreFixed := by
  refine ⟨fun n a ha => ?_, fun first last a ha => ?_, fun first last a ha => ?_,
    fun inc colRemap nibbleRemap scanDir splitOddEven dualCom => ⟨_, _, rfl, ?_⟩⟩
  · simp only [Command.args, List.cons_append, List.nil_append, List.mem_cons, List.not_mem_nil, or_false,
      or_self] at ha
    exact ha ▸ isField7_getLsbD _ (isField7_and_0x7F n)
  · have hwindow : ∃ x : Int, a = windowField x := by
      simp only [Command.args, List.cons_append, List.nil_append, List.mem_cons, List.not_mem_nil, or_false] at ha
      rcases ha with h | h | h | h <;> exact ⟨_, h⟩
    obtain ⟨x, rfl⟩ := hwindow
    exact isField7_getLsbD _ (isField7_windowField x)
  · have hmask : ∃ n : Byte, a = n &&& 0x7F := by
      simp only [Command.args, List.mem_cons, List.not_mem_nil, or_false] at ha
      rcases ha with h | h <;> exact ⟨_, h⟩
    obtain ⟨n, rfl⟩ := hmask
    exact isField7_getLsbD _ (isField7_and_0x7F n)
  · revert inc colRemap nibbleRemap scanDir splitOddEven dualCom
    decide

/-- A command for every opcode byte of the table other than the shared one (R94, R101). -/
def tableCommands : List Command :=
  [.enableGrayScaleTable, .setColumnAddress 0 0, .writeRam, .readRam, .setRowAddress 0 0,
   .setRemapMode false false false false false false, .setStartLine 0, .setOffset 0, .setMode 4, .setMode 5, .setMode 6,
   .setMode 7, .enablePartialDisplay 0 0, .exitPartialDisplay, .vddFunctionSelect 0, .setDisplayOn false,
   .setDisplayOn true, .setPhaseLength 0 0, .setClockDivAndOscFreq 0 0, .displayEnhancementA 0 0,
   .setSecondPrechargePeriod 0, .setGrayScaleTable (Vector.replicate 16 0), .setDefaultGrayScaleTable,
   .setPrechargeVoltage 0, .setVcomh 0, .setContrastCurrent 0, .masterContrastCurrentControl 0, .setMuxRatio 0,
   .setCommandLock false]

theorem wellFormed_of_mem_tableCommands : ∀ c ∈ tableCommands, c.wellFormed = true := by decide

theorem mem_tableCommands_of_rowUses : ∀ b : Byte, rowUses b = true →
    b ∈ tableCommands.map (Command.opcode Config.documented) := by
  decide

/-- Settles O21: a command's byte is that of its row, `SetGpio` shares one with the printed parameter, and each of the
29 rows has a command. -/
theorem opcodeBytesOfCommands : Obligations.OpcodeBytesOfCommands := by
  refine ⟨fun b => ⟨?_, fun hb => ?_⟩, by decide⟩
  · rintro ⟨c, hwf, rfl⟩
    by_cases hgpio : ∃ g0 g1, c = .setGpio g0 g1
    · obtain ⟨g0, g1, rfl⟩ := hgpio
      rfl
    · exact rowUses_opcode hwf fun g0 g1 h => hgpio ⟨g0, g1, h⟩
  · obtain ⟨c, hc, hopcode⟩ := List.mem_map.1 (mem_tableCommands_of_rowUses b hb)
    exact ⟨c, wellFormed_of_mem_tableCommands c hc, hopcode⟩

/-- On the byte that `SetGpio` shares with another row of one argument the decoder answers `raw_command` (R95). -/
theorem decode_shared {cfg : Config} (h : cfg.opcSetGpio = 0xB6) (a : Byte) (rest : List Byte) :
    decode cfg (0xB6 :: [a] ++ rest) = .ok (.rawCommand 0xB6 [a], rest) := by
  have hframe : decodeFrame cfg 0xB6 [a] = .rawCommand 0xB6 [a] := (if_pos h.symm).trans rfl
  rw [decode_append rest rfl, hframe]

/-- Settles O25: the bytes of both commands are the shared byte and one argument. -/
theorem sharedOpcodeIsNotChosen : Obligations.SharedOpcodeIsNotChosen := by
  intro cfg g0 g1 p rest h
  refine ⟨?_, decode_shared h (p &&& 0xF) rest⟩
  rw [Command.bytes, Command.opcode, h]
  exact decode_shared h (gpioByte g0 g1) rest

/-- Settles O26: each word is decoded by evaluation. -/
theorem wordsDecodeAsTheTableSays : Obligations.WordsDecodeAsTheTableSays := by
  unfold Obligations.WordsDecodeAsTheTableSays
  decide

end Sys2Proof
end

section
/-! # What every operation does (R24, R28, R31, R32, R260 to R272)

An operation is one of ten host operations or sends a command; what holds of all operations is proved once for each of
the ten and once for the commands. -/

namespace Sys2Proof.Machine

/-! ## The kinds of operations -/

/-- The ten host operations, and the rows of `toCommand`. -/
theorem Instr.rec_command {P : Instr → Prop} (reset : P .reset) (write : ∀ type b, P (.write type b))
    (multiWriteBegin : P .multiWriteBegin) (multiWriteByte : ∀ b, P (.multiWriteByte b))
    (multiWriteEnd : P .multiWriteEnd) (read : ∀ type, P (.read type))
    (rawCommand : ∀ opcode args, P (.rawCommand opcode args)) (bestFitX : ∀ r n, P (.bestFitX r n))
    (refresh : ∀ dirty, P (.refresh dirty)) (command : ∀ i c, i.toCommand = some c → P i) (i : Instr) : P i := by
  cases i with
  | reset => exact reset
  | write type b => exact write type b
  | multiWriteBegin => exact multiWriteBegin
  | multiWriteByte b => exact multiWriteByte b
  | multiWriteEnd => exact multiWriteEnd
  | read type => exact read type
  | rawCommand opcode args => exact rawCommand opcode args
  | bestFitX r n => exact bestFitX r n
  | refresh dirty => exact refresh dirty
  | _ => exact command _ _ rfl

section commands

variable {i : Instr} {c : Command} (h : i.toCommand = some c)
include h

theorem refusalOf_of_toCommand (s : State) : refusalOf s i = orElseRefuse (refuseSingle s) (refuseOperand c) := by
  cases i <;> cases h <;> rfl

theorem stepsOf_of_toCommand (cfg : Config) (fb : Memory) :
    stepsOf cfg fb i = rawSteps cfg (c.opcode cfg) c.args := by
  cases i <;> cases h <;> rfl

end commands

/-! ## Refusals -/

section refusals

variable {s : State} {i : Instr} {r : Refusal}

theorem orElseRefuse_some {second : Option Refusal} : orElseRefuse (some r) second = some r := rfl

theorem orElseRefuse_eq_none {first second : Option Refusal} :
    orElseRefuse first second = none ↔ first = none ∧ second = none := by
  cases first <;> simp [orElseRefuse]

theorem orElseRefuse_eq_some {first second : Option Refusal} (h : orElseRefuse first second = some r) :
    first = some r ∨ second = some r := by
  cases first with
  | none => exact .inr h
  | some r' => exact .inl h

theorem exec_refused (h : refusalOf s i = some r) : exec i s = .refused r := by rw [exec_eq, h]

theorem refuseSession_of_refuseHalted (h : refuseHalted s = some r) : refuseSession s = some r := by
  rw [refuseSession, h]

theorem refuseSingle_of_refuseSession (h : refuseSession s = some r) : refuseSingle s = some r := by
  rw [refuseSingle, h]

theorem refuseBatch_of_refuseSession (h : refuseSession s = some r) : refuseBatch s = some r := by
  rw [refuseBatch, h]

/-- Every operation outside a batch is refused where a single bus operation is. -/
theorem refusalOf_of_refuseSingle (h : refuseSingle s = some r) (hreset : i ≠ .reset)
    (hfit : ∀ r n, i ≠ .bestFitX r n) (hbyte : ∀ b, i ≠ .multiWriteByte b) (hend : i ≠ .multiWriteEnd) :
    refusalOf s i = some r := by
  induction i using Instr.rec_command with
  | reset => exact absurd rfl hreset
  | multiWriteByte b => exact absurd rfl (hbyte b)
  | multiWriteEnd => exact absurd rfl hend
  | bestFitX r n => exact absurd rfl (hfit r n)
  | write type b => exact h
  | multiWriteBegin => exact h
  | read type => exact h
  | rawCommand opcode args => exact h
  | refresh dirty => rw [refusalOf, h, orElseRefuse_some]
  | command i c hc => rw [refusalOf_of_toCommand hc, h, orElseRefuse_some]

/-- Every operation on the bus is refused where the session is. -/
theorem refusalOf_of_refuseSession (h : refuseSession s = some r) (hreset : i ≠ .reset)
    (hfit : ∀ r n, i ≠ .bestFitX r n) : refusalOf s i = some r := by
  by_cases hbyte : ∃ b, i = .multiWriteByte b
  · obtain ⟨b, rfl⟩ := hbyte
    exact refuseBatch_of_refuseSession h
  by_cases hend : i = .multiWriteEnd
  · subst hend
    exact refuseBatch_of_refuseSession h
  exact refusalOf_of_refuseSingle (refuseSingle_of_refuseSession h) hreset hfit (fun b hb => hbyte ⟨b, hb⟩) hend

theorem refusalOf_of_refuseHalted (h : refuseHalted s = some r) : refusalOf s i = some r := by
  by_cases hreset : i = .reset
  · subst hreset
    exact h
  by_cases hfit : ∃ r n, i = .bestFitX r n
  · obtain ⟨rect, n, rfl⟩ := hfit
    rw [refusalOf, h, orElseRefuse_some]
  exact refusalOf_of_refuseSession (refuseSession_of_refuseHalted h) hreset fun r n h => hfit ⟨r, n, h⟩

/-! ## The reasons of a refusal (R261) -/

theorem reason_of_refuseHalted (h : refuseHalted s = some r) : r = .halted := by
  unfold refuseHalted at h
  split at h
  · exact (Option.some.inj h).symm
  · cases h

theorem reason_of_refuseSession (h : refuseSession s = some r) : r = .halted ∨ r = .notReady := by
  unfold refuseSession at h
  split at h
  · next hhalted => exact .inl (reason_of_refuseHalted (hhalted.trans h))
  · split at h
    · cases h
    · exact .inr (Option.some.inj h).symm

theorem reason_of_refuseSingle (h : refuseSingle s = some r) : r = .halted ∨ r = .notReady ∨ r = .batchOrder := by
  unfold refuseSingle at h
  split at h
  · next hsession => exact (reason_of_refuseSession (hsession.trans h)).imp_right .inl
  · split at h
    · exact .inr (.inr (Option.some.inj h).symm)
    · cases h

theorem reason_of_refuseBatch (h : refuseBatch s = some r) : r = .halted ∨ r = .notReady ∨ r = .batchOrder := by
  unfold refuseBatch at h
  split at h
  · next hsession => exact (reason_of_refuseSession (hsession.trans h)).imp_right .inl
  · split at h
    · cases h
    · exact .inr (.inr (Option.some.inj h).symm)

theorem reason_of_refuseOperand {c : Command} (h : refuseOperand c = some r) : r = .modeDomain := by
  cases c with
  | setMode mode =>
    simp only [refuseOperand] at h
    split at h
    · cases h
    · exact (Option.some.inj h).symm
  | _ => cases h

/-- No operation is without a meaning: each refusal is one of the five of R261. -/
theorem reason_of_refusalOf (h : refusalOf s i = some r) :
    r = .halted ∨ r = .notReady ∨ r = .batchOrder ∨ r = .emptyRect ∨ r = .modeDomain := by
  have hbus : r = .halted ∨ r = .notReady ∨ r = .batchOrder →
      r = .halted ∨ r = .notReady ∨ r = .batchOrder ∨ r = .emptyRect ∨ r = .modeDomain := .imp_right (.imp_right .inl)
  have hempty : ∀ {p : Prop} [Decidable p], (if p then some Refusal.emptyRect else none) = some r → r = .emptyRect := by
    intro p _ h
    split at h
    · exact (Option.some.inj h).symm
    · cases h
  induction i using Instr.rec_command with
  | reset => exact .inl (reason_of_refuseHalted h)
  | multiWriteByte b => exact hbus (reason_of_refuseBatch h)
  | multiWriteEnd => exact hbus (reason_of_refuseBatch h)
  | bestFitX rect n =>
    rcases orElseRefuse_eq_some h with h | h
    · exact .inl (reason_of_refuseHalted h)
    · split at h
      · cases h
      · exact .inr (.inr (.inr (.inl (hempty h))))
  | write type b => exact hbus (reason_of_refuseSingle h)
  | multiWriteBegin => exact hbus (reason_of_refuseSingle h)
  | read type => exact hbus (reason_of_refuseSingle h)
  | rawCommand opcode args => exact hbus (reason_of_refuseSingle h)
  | refresh dirty =>
    rcases orElseRefuse_eq_some h with h | h
    · exact hbus (reason_of_refuseSingle h)
    · exact .inr (.inr (.inr (.inl (hempty h))))
  | command i c hc =>
    rw [refusalOf_of_toCommand hc] at h
    rcases orElseRefuse_eq_some h with h | h
    · exact hbus (reason_of_refuseSingle h)
    · exact .inr (.inr (.inr (.inr (reason_of_refuseOperand h))))

end refusals

/-- Settles O42: the check of the fatal flag stands before every other (R261). -/
theorem haltedRefusesEverything : Obligations.HaltedRefusesEverything := by
  intro i s h
  have hhalted : refuseHalted s = some .halted := by simp [refuseHalted, Option.isSome_iff_ne_none, h]
  exact exec_refused (refusalOf_of_refuseHalted hhalted)

/-- Settles O43: the check of the session stands before that of the batch (R267). -/
theorem unreadySessionRefuses : Obligations.UnreadySessionRefuses := by
  intro i s hfatal hsession hreset hfit
  have hnotReady : refuseSession s = some .notReady := by simp [refuseSession, refuseHalted_none hfatal, hsession]
  exact exec_refused (refusalOf_of_refuseSession hnotReady hreset hfit)

/-- Settles O44: in a ready session the batch flag decides (R268). -/
theorem batchOrderRefuses : Obligations.BatchOrderRefuses := by
  intro i s hfatal hready
  have hsession : refuseSession s = none := by simp [refuseSession, refuseHalted_none hfatal, hready]
  refine ⟨fun hopen hreset hfit hbyte hend => ?_, fun hclosed => ?_⟩
  · have hsingle : refuseSingle s = some .batchOrder := by simp [refuseSingle, hsession, hopen]
    exact exec_refused (refusalOf_of_refuseSingle hsingle hreset hfit hbyte hend)
  · have hbatch : refuseBatch s = some .batchOrder := refuseBatch_of_accepts ⟨hfatal, hready, hclosed⟩
    exact ⟨fun b => exec_refused (i := .multiWriteByte b) hbatch, exec_refused (i := .multiWriteEnd) hbatch⟩

/-! ## Outcomes and frame -/

/-- Settles O53: the three ends of `exec_eq`; a run that is admitted completes or is aborted, and both are idle. -/
theorem operationOutcomes : Obligations.OperationOutcomes := by
  intro i s
  cases hrefusal : refusalOf s i with
  | some r => exact .inr (.inr ⟨r, exec_refused hrefusal, reason_of_refusalOf hrefusal⟩)
  | none =>
    have hfatal : s.fatal = none := fatal_none_of_refusalOf hrefusal
    cases hkind : fatalOf s i with
    | some k =>
      have hhalt : exec i s = halt i k s := by simp [exec_eq, hrefusal, hkind]
      exact .inr (.inl ⟨_, hhalt, by simp, rfl, rfl, rfl, rfl⟩)
    | none =>
      rw [exec_of_admitted hrefusal hkind]
      rcases complete_cases i (stepsOf s.cfg s.fb i) (resultOf s i) s with h | ⟨before, p, after, -, -, h⟩
      · exact .inl ⟨_, h, by simp [hfatal], rfl, by simp⟩
      · exact .inl ⟨_, h, by simp [hfatal], rfl, by simp⟩

/-- No operation writes the pixel buffer, the parameters or the host's moves (R17, R36). -/
theorem exec_frame {i : Instr} {s t : State} (h : exec i s = .next t) :
    t.fb = s.fb ∧ t.cfg = s.cfg ∧ t.script = s.script := by
  obtain ⟨-, -, ⟨-, rfl⟩ | ⟨-, before, p, after, -, -, rfl⟩ | ⟨k, -, rfl⟩⟩ := exec_next h <;> simp

/-- Settles O51: the frame of `exec`, and a read of an unchanged buffer. -/
theorem operationsNeverWriteBuffer : Obligations.OperationsNeverWriteBuffer := by
  intro i s t h
  obtain ⟨hfb, hcfg, hscript⟩ := exec_frame h
  exact ⟨fun k => by rw [hfb], hfb, hcfg, hscript⟩

/-- The events of steps that take effect hold no failure (R46). -/
theorem effects_trace_no_fail (ms : List Micro) (s : State) :
    ∃ es, (effects ms s).trace = s.trace ++ es ∧ ∀ p, Event.fail p ∉ es := by
  induction ms generalizing s with
  | nil => exact ⟨[], by simp [effects], by simp⟩
  | cons m rest ih =>
    cases m with
    | prim p =>
      obtain ⟨e, he, hne⟩ : ∃ e, (p.effect s).trace = s.trace ++ [e] ∧ ∀ q, e ≠ .fail q := by
        cases p <;> exact ⟨_, rfl, fun q h => nomatch h⟩
      obtain ⟨es, hes, hno⟩ := ih (p.effect s)
      refine ⟨e :: es, by simp [effects, hes, he], fun q hq => ?_⟩
      rcases List.mem_cons.1 hq with h | h
      · exact hne q h.symm
      · exact hno q h
    | setBatch b => exact ih { s with batchOpen := b }
    | setReady => exact ih { s with session := .ready }

theorem resultOf_ne_errPin (s : State) (i : Instr) : resultOf s i ≠ .errPin := by
  cases i <;> exact fun h => nomatch h

/-- Settles O46: of the three ends only an aborted run has the result `PinError` (R265). -/
theorem pinErrorEntry : Obligations.PinErrorEntry := by
  intro i s t h herr
  obtain ⟨hfb, hcfg, hscript⟩ := exec_frame h
  obtain ⟨-, -, ⟨-, rfl⟩ | ⟨-, before, p, after, -, -, rfl⟩ | ⟨k, -, rfl⟩⟩ := exec_next h
  · exact absurd (Option.some.inj herr) (resultOf_ne_errPin s i)
  · obtain ⟨es, hes, hno⟩ := effects_trace_no_fail before (s.start i)
    exact ⟨rfl, rfl, rfl, rfl, ⟨es, p, by simp [hes], hno⟩, hfb, hcfg, by simp, hscript⟩
  · cases herr

/-! ## Steps -/

/-- What a step that answers a next state did: it waited, ran an operation, or wrote the pixel buffer. -/
theorem step_next {s t : State} (h : step s = .next t) :
    (s.script = [] ∧ t = s) ∨
    (∃ i rest, s.script = .op i :: rest ∧ exec i { s with script := rest } = .next t) ∨
    (∃ d rest fb, s.script = .draw d :: rest ∧ s.seq = .idle ∧ drawOn s.cfg d s.fb = .ok fb ∧
      t = { s with fb := fb, script := rest }) := by
  unfold step at h
  split at h
  · next hscript =>
    unfold waitStep at h
    split at h
    · cases h
    · exact .inl ⟨hscript, (Host.Outcome.next.inj h).symm⟩
  · next i rest hscript => exact .inr (.inl ⟨i, rest, hscript, h⟩)
  · next d rest hscript =>
    unfold drawStep at h
    split at h
    · cases h
    · next hidle =>
      split at h
      · next fb hdraw => exact .inr (.inr ⟨d, rest, fb, hscript, hidle, hdraw, (Host.Outcome.next.inj h).symm⟩)
      · cases h

/-- An operation only appends to the trace (R46). -/
theorem exec_trace_grows {i : Instr} {s t : State} (h : exec i s = .next t) : ∃ es, t.trace = s.trace ++ es := by
  obtain ⟨-, -, ⟨-, rfl⟩ | ⟨-, before, p, after, -, -, rfl⟩ | ⟨k, -, rfl⟩⟩ := exec_next h
  · exact effects_trace_grows (stepsOf s.cfg s.fb i) (s.start i)
  · obtain ⟨es, hes⟩ := effects_trace_grows before (s.start i)
    exact ⟨es ++ [.fail p], by simp [hes]⟩
  · exact ⟨[], by simp⟩

/-- Settles O52: waiting and drawing leave the trace, and an operation appends to it. -/
theorem traceIsAppendOnly : Obligations.TraceIsAppendOnly := by
  intro s t h
  rcases step_next h with ⟨-, rfl⟩ | ⟨i, rest, -, hexec⟩ | ⟨d, rest, fb, -, -, -, rfl⟩
  · exact ⟨[], (List.append_nil _).symm⟩
  · obtain ⟨es, hes⟩ := exec_trace_grows hexec
    exact ⟨es, hes⟩
  · exact ⟨[], (List.append_nil _).symm⟩

/-- Settles O57: a step whose head is a drawing move is the third case of `step_next`. -/
theorem drawingChangesBufferOnly : Obligations.DrawingChangesBufferOnly := by
  intro d rest s t hscript h
  rcases step_next h with ⟨hnil, -⟩ | ⟨i, rest', hop, -⟩ | ⟨d', rest', fb, hdraw, hidle, -, rfl⟩
  · simp [hscript] at hnil
  · simp [hscript] at hop
  · obtain ⟨-, rfl⟩ := List.cons.inj (hscript.symm.trans hdraw)
    exact ⟨hidle, rfl⟩

theorem step_op {s : State} {i : Instr} {rest : List HostMove} (h : s.script = .op i :: rest) :
    step s = exec i { s with script := rest } := by
  simp only [step, h]

/-- Settles O56: the placed word is the head of the host's moves, and a step takes the head. -/
theorem stepRunsDecodedInstruction : Obligations.StepRunsDecodedInstruction := by
  refine ⟨fun s nbits w i hdecode => ?_, fun s i rest => step_op, fun s hscript hfatal => ?_⟩
  · have hplaced : s.withFetchWord nbits w = s.issue i := by simp [State.withFetchWord, hdecode]
    rw [hplaced, step_op (State.issue_script s i)]
    rfl
  · simp [step, hscript, waitStep, hfatal]

end Sys2Proof.Machine
end

section
/-! # The invariant of the states between operations (R21, R25, R35, R61, R304)

Each operation keeps the control clauses of the invariant by what its events leave of the latches; an aborted one ends
outside a ready session, where every latch is unknown. -/

namespace Sys2Proof.Machine

/-- The clauses of the invariant that tie the latches to the session and the batch flag (R21, R25, R35, R304). -/
structure State.Controlled (s : State) : Prop where
  batch : s.batchOpen = true → s.session = .ready ∧ s.pins.cs = some .low ∧ s.pins.dc = some .high
  lines : s.session = .ready → s.pins.res = some .high ∧ s.pins.wr = some .high ∧ s.pins.rd = some .high ∧
    s.pins.cs ≠ none ∧ s.pins.dir ≠ none
  unknown : s.session ≠ .ready → s.pins = Latches.unknown

theorem State.Inv.controlled {s : State} (h : s.Inv) : s.Controlled := ⟨h.batch, h.lines, h.unknown⟩

theorem isEmptyRect_eq_false {r : Rect} : isEmptyRect r = false ↔ 0 < r.w ∧ 0 < r.h := by
  simp [isEmptyRect]

theorem pos_of_refusalOf_refresh {s : State} {d : Rect} (h : refusalOf s (.refresh d) = none) : 0 < d.w ∧ 0 < d.h := by
  obtain ⟨-, hempty⟩ := orElseRefuse_eq_none.1 h
  apply isEmptyRect_eq_false.1
  split at hempty
  · cases hempty
  · next hne => simpa using hne

section completed

variable {s : State} {i : Instr}

/-- A completed operation keeps the control clauses: outside a batch it leaves the strobes high (R155 c, R304). -/
theorem completed_controlled (h : s.Controlled) (hr : refusalOf s i = none) (r : Result) :
    ((effects (stepsOf s.cfg s.fb i) (s.start i)).finish r).Controlled := by
  have hlines := h.lines
  induction i using Instr.rec_command with
  | reset => constructor <;> simp [effects_pins 0, stepsOf]
  | write type b =>
    obtain ⟨-, hready, hclosed⟩ := accepts_of_refuseSingle hr
    constructor <;> simp [effects_pins 0, stepsOf, hready, hclosed, hlines hready]
  | multiWriteBegin =>
    obtain ⟨-, hready, hclosed⟩ := accepts_of_refuseSingle hr
    constructor <;> simp [effects_pins 0, stepsOf, hready, hlines hready]
  | multiWriteByte b =>
    obtain ⟨-, hready, hopen⟩ := inBatch_of_refuseBatch hr
    constructor <;> simp [effects_pins 0, stepsOf, hready, hlines hready, h.batch hopen]
  | multiWriteEnd =>
    obtain ⟨-, hready, hopen⟩ := inBatch_of_refuseBatch hr
    constructor <;> simp [effects_pins 0, stepsOf, hready, hlines hready, Latches.after]
  | read type =>
    obtain ⟨-, hready, hclosed⟩ := accepts_of_refuseSingle hr
    constructor <;> simp [effects_pins 0, stepsOf, hready, hclosed, hlines hready]
  | rawCommand opcode args =>
    obtain ⟨-, hready, hclosed⟩ := accepts_of_refuseSingle hr
    constructor <;> simp [effects_pins 0, stepsOf, hready, hclosed, hlines hready]
  | bestFitX rect n => exact ⟨h.batch, h.lines, h.unknown⟩
  | refresh dirty =>
    obtain ⟨-, hready, -⟩ := accepts_of_refuseSingle (orElseRefuse_eq_none.1 hr).1
    obtain ⟨hw, hh⟩ := pos_of_refusalOf_refresh hr
    constructor <;>
      simp [effects_pins 0, stepsOf, hready, hlines hready, minSpan, after_refreshEvents, streamBytes_ne_nil hw hh]
  | command i c hc =>
    rw [refusalOf_of_toCommand hc] at hr
    obtain ⟨-, hready, hclosed⟩ := accepts_of_refuseSingle (orElseRefuse_eq_none.1 hr).1
    constructor <;> simp [effects_pins 0, stepsOf_of_toCommand hc, hready, hclosed, hlines hready]

end completed

/-- An operation keeps the invariant, whichever way it ends. -/
theorem exec_keeps_inv {i : Instr} {s t : State} (hinv : s.Inv) (h : exec i s = .next t) : t.Inv := by
  obtain ⟨hfatal, hr, ⟨-, rfl⟩ | ⟨-, before, p, after, -, -, rfl⟩ | ⟨k, -, rfl⟩⟩ := exec_next h
  · obtain ⟨hbatch, hlines, hunknown⟩ := completed_controlled hinv.controlled hr (resultOf s i)
    exact
      { fbCanonical := by simpa using hinv.fbCanonical
        pixels := by simpa using hinv.pixels
        idle := fun _ => rfl
        batch := hbatch
        lines := hlines
        unknown := hunknown
        replay := effects_replay (stepsOf s.cfg s.fb i) (s.start i) hinv.replay }
  · exact
      { fbCanonical := by simpa using hinv.fbCanonical
        pixels := by simpa using hinv.pixels
        idle := fun _ => rfl
        batch := fun h => nomatch h
        lines := fun h => nomatch h
        unknown := fun _ => rfl
        replay := by simp [latchesOf, Latches.after] }
  · exact
      { fbCanonical := hinv.fbCanonical
        pixels := hinv.pixels
        idle := fun h => nomatch h
        batch := hinv.batch
        lines := hinv.lines
        unknown := hinv.unknown
        replay := hinv.replay }

/-- Settles O54: waiting changes nothing, a drawing call keeps the buffer's clauses and touches no other, and an
operation keeps them all. -/
theorem stepKeepsInvariant : Obligations.StepKeepsInvariant := by
  intro s t hinv h
  rcases step_next h with ⟨-, rfl⟩ | ⟨i, rest, -, hexec⟩ | ⟨d, rest, fb, -, -, hdraw, rfl⟩
  · exact hinv
  · exact exec_keeps_inv (s := { s with script := rest }) { hinv with } hexec
  · exact
      { hinv with
        fbCanonical := wf_drawOn hinv.fbCanonical hdraw
        pixels := pixels_drawOn hinv.fbCanonical hinv.pixels hdraw }

/-- Settles O55: both states are evaluated clause by clause; the latches after `reset` are replayed from its eleven
events (R152 f). -/
theorem resetMeetsInvariant : Obligations.ResetMeetsInvariant := by
  have hzero : ∀ k, (memRead [] k).toNat ≤ 15 := fun k => by simp [memRead, unlistedByte]
  constructor
  · exact
      { fbCanonical := wf_powerOn
        pixels := hzero
        idle := fun _ => rfl
        batch := fun h => nomatch h
        lines := fun h => nomatch h
        unknown := fun _ => rfl
        replay := rfl }
  · exact
      { fbCanonical := wf_reset
        pixels := hzero
        idle := fun _ => rfl
        batch := fun h => nomatch h
        lines := fun _ => by decide
        unknown := fun h => absurd rfl h
        replay := rfl }

end Sys2Proof.Machine
end

section
/-! # Latches (R24)

Which latches an operation writes is read off its events; that it reads none is a run that takes the same steps
whatever they hold. -/

namespace Sys2Proof.Machine

/-! ## The latches an operation leaves unchanged -/

/-- The latches that operation `i` may not have written, from `l` to `l'` (R24). -/
def LatchFrame (i : Instr) (l l' : Latches) : Prop :=
  (i ≠ .reset → l'.res = l.res) ∧
  (i ≠ .reset → (∀ type, i ≠ .read type) → l'.rd = l.rd) ∧
  (i = .reset → l'.dc = l.dc ∧ l'.dout = l.dout) ∧
  (i = .multiWriteBegin → l'.wr = l.wr ∧ l'.dout = l.dout ∧ l'.dir = l.dir) ∧
  (∀ b, i = .multiWriteByte b → l'.cs = l.cs ∧ l'.dc = l.dc ∧ l'.dir = l.dir) ∧
  (i = .multiWriteEnd → l'.wr = l.wr ∧ l'.dc = l.dc ∧ l'.dout = l.dout ∧ l'.dir = l.dir) ∧
  (∀ type, i = .read type → l'.wr = l.wr ∧ l'.dout = l.dout) ∧
  (∀ r n, i = .bestFitX r n → l' = l)

theorem LatchFrame.refl (i : Instr) (l : Latches) : LatchFrame i l l := by simp [LatchFrame]

/-- The host operations have no command. -/
theorem ne_hostOperation_of_toCommand {i : Instr} {c : Command} (h : i.toCommand = some c) :
    i ≠ .reset ∧ i ≠ .multiWriteBegin ∧ (∀ b, i ≠ .multiWriteByte b) ∧ i ≠ .multiWriteEnd ∧
      (∀ type, i ≠ .read type) ∧ (∀ r n, i ≠ .bestFitX r n) := by
  refine ⟨?_, ?_, fun b => ?_, ?_, fun type => ?_, fun r n => ?_⟩ <;> rintro rfl <;> cases h

/-- The events of an operation keep the latches of its frame. -/
theorem latchFrame_events {s : State} {i : Instr} (hr : refusalOf s i = none) (l : Latches) :
    LatchFrame i l ((eventsWith 0 (stepsOf s.cfg s.fb i)).foldl Latches.after l) := by
  induction i using Instr.rec_command with
  | reset => simp [LatchFrame, stepsOf]
  | write type b => simp [LatchFrame, stepsOf]
  | multiWriteBegin => simp [LatchFrame, stepsOf]
  | multiWriteByte b => simp [LatchFrame, stepsOf]
  | multiWriteEnd => simp [LatchFrame, stepsOf, Latches.after]
  | read type => simp [LatchFrame, stepsOf]
  | rawCommand opcode args => simp [LatchFrame, stepsOf]
  | bestFitX r n => exact LatchFrame.refl (.bestFitX r n) l
  | refresh dirty =>
    obtain ⟨hw, hh⟩ := pos_of_refusalOf_refresh hr
    simp [LatchFrame, stepsOf, minSpan, after_refreshEvents, streamBytes_ne_nil hw hh]
  | command i c hc =>
    obtain ⟨hreset, hbegin, hbyte, hend, hread, hfit⟩ := ne_hostOperation_of_toCommand hc
    simp [LatchFrame, stepsOf_of_toCommand hc, hreset, hbegin, hbyte, hend, hread, hfit]

/-- Settles O10: a completed operation leaves the latches its events leave, and a halted one leaves them all. -/
theorem latchFrameOfOperations : Obligations.LatchFrameOfOperations := by
  intro i s t h herr
  obtain ⟨-, hr, ⟨-, rfl⟩ | ⟨-, before, p, after, -, -, rfl⟩ | ⟨k, -, rfl⟩⟩ := exec_next h
  · have hpins := effects_pins 0 (stepsOf s.cfg s.fb i) (s.start i)
    rw [State.finish_pins, hpins]
    exact latchFrame_events hr s.pins
  · exact absurd rfl herr
  · exact LatchFrame.refl i s.pins

/-! ## No operation reads a latch -/

/-- The state a run ends in, changed. -/
def Flow.map (f : State → State) : Flow → Flow
  | .done s => .done (f s)
  | .aborted s => .aborted (f s)

/-- A run takes the same steps from other latches, and ends in a state that differs at most in its latches. -/
theorem run_pins (ms : List Micro) (s : State) (l : Latches) :
    ∃ l', run ms { s with pins := l } = (run ms s).map fun t => { t with pins := l' } := by
  induction ms generalizing s l with
  | nil => exact ⟨l, rfl⟩
  | cons m rest ih =>
    cases m with
    | prim p =>
      have hanswer : State.answer { s with pins := l } = s.answer := rfl
      by_cases hfail : (p.fallible && s.answer == .fail) = true
      · refine ⟨Latches.unknown, ?_⟩
        simp only [run, attempt, hanswer, hfail, if_true]
        rfl
      · have heffect : ∃ l', p.effect { s with pins := l } = { p.effect s with pins := l' } := by
          cases p <;> exact ⟨_, rfl⟩
        obtain ⟨l', hl'⟩ := heffect
        obtain ⟨l'', hl''⟩ := ih (p.effect s) l'
        refine ⟨l'', ?_⟩
        simp only [run, attempt, hanswer, hfail, hl']
        exact hl''
    | setBatch b => exact ih { s with batchOpen := b } l
    | setReady => exact ih { s with session := .ready } l

theorem complete_pins (op : Instr) (ms : List Micro) (r : Result) (s : State) (l : Latches) :
    ∃ t l', complete op ms r s = .next t ∧ complete op ms r { s with pins := l } = .next { t with pins := l' } := by
  obtain ⟨l', hl'⟩ := run_pins ms (s.start op) l
  have hstart : State.start { s with pins := l } op = { s.start op with pins := l } := rfl
  simp only [complete, hstart, hl']
  cases run ms (s.start op) with
  | done t => exact ⟨_, l', rfl, rfl⟩
  | aborted t => exact ⟨_, l', rfl, rfl⟩

theorem refusalOf_pins (s : State) (l : Latches) (i : Instr) : refusalOf { s with pins := l } i = refusalOf s i := by
  cases i <;> rfl

theorem fatalOf_pins (s : State) (l : Latches) (i : Instr) : fatalOf { s with pins := l } i = fatalOf s i := by
  cases i <;> rfl

theorem resultOf_pins (s : State) (l : Latches) (i : Instr) : resultOf { s with pins := l } i = resultOf s i := by
  cases i <;> rfl

/-- Admission, fault, steps and result do not depend on the latches, and neither does a run. -/
theorem exec_pins (i : Instr) (s : State) (l : Latches) :
    (∃ r, exec i s = .refused r ∧ exec i { s with pins := l } = .refused r) ∨
    ∃ t l', exec i s = .next t ∧ exec i { s with pins := l } = .next { t with pins := l' } := by
  cases hr : refusalOf s i with
  | some r => exact .inl ⟨r, exec_refused hr, exec_refused ((refusalOf_pins s l i).trans hr)⟩
  | none =>
    have hr' : refusalOf { s with pins := l } i = none := (refusalOf_pins s l i).trans hr
    refine .inr ?_
    cases hk : fatalOf s i with
    | some k =>
      have hk' : fatalOf { s with pins := l } i = some k := (fatalOf_pins s l i).trans hk
      exact ⟨raiseFatal k (s.start i), l, by simp [exec_eq, hr, hk, halt], by simp [exec_eq, hr', hk', halt]; rfl⟩
    | none =>
      rw [exec_of_admitted hr hk, exec_of_admitted hr' ((fatalOf_pins s l i).trans hk), resultOf_pins s l i]
      exact complete_pins i (stepsOf s.cfg s.fb i) (resultOf s i) s l

/-- Settles O9: both answers are the same refusal, or next states that differ in their latches. -/
theorem latchesAreWriteOnly : Obligations.LatchesAreWriteOnly := by
  intro i s l
  rcases exec_pins i s l with ⟨r, h, h'⟩ | ⟨t, l', h, h'⟩
  · rw [h, h']
  · rw [h, h']
    exact ⟨l', rfl⟩

end Sys2Proof.Machine
end

section
/-! # The bus transactor (R151 to R162)

Each operation without a sample is its step list run by `complete_ok` or cut by `complete_fails`. `read` draws a sample
on its way, so its ends are taken at the step itself. -/

namespace Sys2Proof.Machine

variable {s : State}

/-! ## Completion -/

/-- After a completed `reset` (R151). -/
def State.wasReset (s : State) : State :=
  { s.completed
      { s.pins with res := some .high, cs := some .low, wr := some .high, rd := some .high, dir := some .output }
      (resetEvents s.cfg.delays) 8 .ok with
    session := .ready, batchOpen := false }

theorem exec_reset_ok (hf : s.fatal = none) (h : s.pinsAnswerOk 8) : exec .reset s = .next s.wasReset := by
  rw [exec_of_admitted (i := .reset) (refuseHalted_none hf) rfl]
  exact complete_ok 0 (noSample_resetSteps s.cfg) h

/-- Settles O2: `reset` runs its steps in any session state, and its events hold no transfer. -/
theorem resetOperationCompletes : Obligations.ResetOperationCompletes := by
  intro s hf h
  exact ⟨_, exec_reset_ok hf h, rfl, by simp [State.wasReset, State.completed, State.transfers, transfersOf_append]⟩

/-- Settles O1: the power-on values, and `reset` evaluated at power-on. -/
theorem resetStateValues : Obligations.ResetStateValues := by
  have hreset : exec .reset State.powerOn = .next State.reset := exec_reset_ok rfl fun _ a ha => nomatch ha
  exact ⟨rfl, rfl, rfl, rfl, rfl, rfl, rfl, hreset, rfl, rfl, rfl, rfl, rfl, rfl, rfl, rfl, rfl, rfl⟩

/-- After a completed `write(type, byte)` (R154). -/
def State.wrote (s : State) (type : TxType) (b : Byte) : State :=
  s.completed
    { s.pins with
      dir := some .output, dout := some b, dc := some (dcLevel type), cs := some .high, wr := some .high }
    (writeEvents s.cfg.delays type b) 7 .ok

theorem exec_write_ok (type : TxType) (b : Byte) (hs : s.accepts) (h : s.pinsAnswerOk 7) :
    exec (.write type b) s = .next (s.wrote type b) := by
  rw [exec_of_admitted (i := .write type b) (refuseSingle_none hs) rfl]
  refine (complete_ok 0 (noSample_writeSteps s.cfg type b) h).trans ?_
  simp [State.wrote, State.completed, resultOf]

/-- Settles O3: `write` runs its steps, and its events hold one transfer, whatever went before. -/
theorem singleWriteCompletes : Obligations.SingleWriteCompletes := by
  intro type b s hs h
  refine ⟨_, exec_write_ok type b hs h, ?_, ?_⟩
  · cases type <;> rfl
  · cases type <;> simp [State.wrote, State.completed, State.transfers, transfersOf_append, dcLevel]

/-- Settles O4: the state of `batchBegun`, whose direction is the one before. -/
theorem batchBeginCompletes : Obligations.BatchBeginCompletes := fun _ => exec_multiWriteBegin_ok

/-- After a completed `multi_write_byte(byte)` (R158). -/
def State.batched (s : State) (b : Byte) : State :=
  s.completed { s.pins with dout := some b, wr := some .high } (byteEvents s.cfg.delays b) 3 .ok

theorem exec_multiWriteByte_ok (b : Byte) (hs : s.inBatch) (h : s.pinsAnswerOk 3) :
    exec (.multiWriteByte b) s = .next (s.batched b) := by
  rw [exec_of_admitted (i := .multiWriteByte b) (refuseBatch_none hs) rfl]
  exact complete_ok 0 (noSample_byteSteps s.cfg b) h

/-- Settles O5: `multi_write_byte` runs its steps. -/
theorem batchByteCompletes : Obligations.BatchByteCompletes := fun b _ => exec_multiWriteByte_ok b

/-- Inside a batch the invariant gives `CS = 0` and `DC = 1`, so a batched byte is one data transfer (R35, R47). -/
theorem State.batched_transfers (b : Byte) (hinv : s.Inv) (hs : s.inBatch) :
    (s.batched b).transfers =
      s.transfers ++ [⟨.w, some .high, if s.pins.dir = some .output then some b else none⟩] := by
  obtain ⟨-, -, hopen⟩ := hs
  obtain ⟨-, hcs, hdc⟩ := hinv.batch hopen
  have hpins : s.replay.pins = s.pins := (State.replay_pins s).trans hinv.replay
  have hbyte := transfersFrom_byteEvents (r := s.replay) s.cfg.delays b (by rw [hpins, hcs])
  rw [hpins, hdc] at hbyte
  rw [← hbyte]
  exact transfersOf_append s.trace (byteEvents s.cfg.delays b)

/-- Settles O6: the direction decides whether the batched byte is driven (R47, R300). -/
theorem batchByteTransfer : Obligations.BatchByteTransfer := by
  intro b s hinv hs h
  have htransfers := State.batched_transfers b hinv hs
  refine ⟨_, exec_multiWriteByte_ok b hs h, fun hdir => ?_, fun hdir => ?_⟩
  · simpa [hdir] using htransfers
  · simpa [hdir] using htransfers

/-! ## Failure -/

/-- Settles O47: each of the four is cut at its `n`-th fallible step. -/
theorem writesFailAtStep : Obligations.WritesFailAtStep := by
  intro type b s n h
  refine ⟨fun hs hn => ?_, fun hs hn => ?_, fun hs hn => ?_, fun hs hn => ?_⟩
  · rw [exec_of_admitted (i := .write type b) (refuseSingle_none hs) rfl, ← eventsWith_writeSteps 0]
    exact complete_fails 0 (noSample_writeSteps s.cfg type b) h hn
  · rw [exec_of_admitted (i := .multiWriteBegin) (refuseSingle_none hs) rfl]
    exact complete_fails 0 (noSample_beginSteps s.cfg) h hn
  · rw [exec_of_admitted (i := .multiWriteByte b) (refuseBatch_none hs) rfl]
    exact complete_fails 0 (noSample_byteSteps s.cfg b) h hn
  · rw [exec_of_admitted (i := .multiWriteEnd) (refuseBatch_none hs) rfl]
    exact complete_fails 0 noSample_endSteps h hn

/-- Without a fatal flag `reset` answers a next state: it completes or is aborted (R152). -/
theorem exec_reset_next (h : s.fatal = none) : ∃ t, exec .reset s = .next t := by
  rw [exec_of_admitted (i := .reset) (refuseHalted_none h) rfl]
  rcases complete_cases .reset (stepsOf s.cfg s.fb .reset) (resultOf s .reset) s with hc | ⟨_, p, _, -, -, hc⟩
  · exact ⟨_, hc⟩
  · exact ⟨_, hc⟩

/-- Settles O48: `reset` is cut at its `n`-th fallible step, which sets no fatal flag. -/
theorem resetFailsAtStep : Obligations.ResetFailsAtStep := by
  intro s n hf hn h
  refine ⟨_, ?_, rfl, exec_reset_next hf⟩
  rw [exec_of_admitted (i := .reset) (refuseHalted_none hf) rfl]
  exact complete_fails 0 (noSample_resetSteps s.cfg) h hn

/-! ## Read -/

/-- After a completed `read(type)` (R160). -/
def State.hasRead (s : State) (type : TxType) : State :=
  { s.completed
      { s.pins with dir := some .input, dc := some (dcLevel type), cs := some .high, rd := some .high }
      (readEvents s.cfg.delays type s.sampleByte) 7 (.okByte s.sampleByte) with
    samples := s.samples.tail
    draws := if s.samples = [] then s.draws + 1 else s.draws }

/-- What the steps of `read` append and draw (R160, R161). -/
theorem effects_readSteps (cfg : Config) (type : TxType) (s : State) :
    (effects (readSteps cfg type) s).trace = s.trace ++ readEvents cfg.delays type s.sampleByte ∧
    (effects (readSteps cfg type) s).samples = s.samples.tail ∧
    (effects (readSteps cfg type) s).draws = s.sampled.draws := by
  refine ⟨?_, rfl, rfl⟩
  cases type <;>
    simp [effects, readSteps, pin, delay, Prim.effect, Prim.event, readEvents, dcLevel, State.sampleByte]

theorem exec_read_ok (type : TxType) (hs : s.accepts) (h : s.pinsAnswerOk 7) :
    exec (.read type) s = .next (s.hasRead type) := by
  have hrun : run (readSteps s.cfg type) (s.start (.read type)) = .done _ := run_ok h
  obtain ⟨htrace, hsamples, hdraws⟩ := effects_readSteps s.cfg type (s.start (.read type))
  rw [exec_of_admitted (i := .read type) (refuseSingle_none hs) rfl]
  simp only [complete, stepsOf, hrun, Host.Outcome.next.injEq]
  unfold State.finish
  simp [effects_pins 0, htrace, hsamples, hdraws, State.hasRead, State.completed, resultOf, State.sampleByte]

/-- The byte `read` returns is the listed one, or the free value past the list (R161, log 6). -/
theorem sampleByte_eq : (∀ b rest, s.samples = b :: rest → s.sampleByte = b) ∧
    (s.samples = [] → s.sampleByte = Config.freeSample s.draws) :=
  ⟨fun b rest h => by simp [State.sampleByte, h], fun h => by simp [State.sampleByte, h]⟩

theorem State.hasRead_transfers (type : TxType) :
    (s.hasRead type).transfers = s.transfers ++ [⟨.r, some (dcLevel type), some s.sampleByte⟩] := by
  simp [State.hasRead, State.completed, State.transfers, transfersOf_append]

/-- Settles O8: `read` runs its steps with the controller's byte as its sample. -/
theorem singleReadCompletes : Obligations.SingleReadCompletes := by
  intro type s hs h
  obtain ⟨hlisted, hfree⟩ := sampleByte_eq (s := s)
  refine ⟨s.sampleByte, _, exec_read_ok type hs h, ?_, hlisted, hfree, ?_⟩
  · cases type <;> rfl
  · rw [State.hasRead_transfers]
    cases type <;> rfl

theorem attempt_ok {p : Prim} {n : Nat} (h : s.pinsAnswerOk ((if p.fallible then 1 else 0) + n)) :
    attempt p s = .done (p.effect s) := by
  cases hp : p.fallible with
  | false => simp [attempt, hp]
  | true =>
    have hanswer : s.answer = .ok := answer_ok (n := n) (by simpa [hp, Nat.add_comm] using h)
    simp [attempt, hanswer]

/-- Steps whose answers are ok take effect before the others run. -/
theorem run_append_ok {before : List Micro} (after : List Micro) (h : s.pinsAnswerOk (asks before)) :
    run (before ++ after) s = run after (effects before s) := by
  induction before generalizing s with
  | nil => rfl
  | cons m rest ih =>
    cases m with
    | prim p =>
      simp only [List.cons_append, run, attempt_ok h, effects]
      exact ih (pinsAnswerOk_effect h)
    | setBatch b => exact ih (s := { s with batchOpen := b }) h
    | setReady => exact ih (s := { s with session := .ready }) h

/-- The answer after the steps before the one that fails. -/
theorem answer_effects_of_pinFailsAt {before : List Micro} (h : s.pinFailsAt (asks before)) :
    (effects before s).answer = .fail := by
  obtain ⟨hp, -, hfail⟩ := h
  simp [State.answer, hp, List.headD_eq_head?_getD, List.head?_drop, hfail]

/-- The events of the steps before a failing step, and its failure (R46). -/
theorem failAt_asks (v : Byte) (before after : List Micro) {p : Prim} (hp : p.fallible = true) :
    failAt (asks before) (eventsWith v (before ++ .prim p :: after)) = eventsWith v before ++ [.fail p] := by
  induction before with
  | nil =>
    cases p with
    | delay n => cases hp
    | _ => rfl
  | cons m rest ih =>
    cases m with
    | prim q => cases q <;> simp [asks, eventsWith, failAt, Prim.fallible, Nat.add_comm 1, ← ih]
    | setBatch b => exact ih
    | setReady => exact ih

/-- An operation is aborted at the step that fails, after the effects of the steps before it; of those only a sample
draws (R265). -/
theorem complete_aborts_at {op : Instr} {before after : List Micro} {p : Prim} {r : Result} (v : Byte)
    (hp : p.fallible = true) (h : s.pinFailsAt (asks before))
    (htrace : (effects before (s.start op)).trace = s.trace ++ eventsWith v before) :
    complete op (before ++ .prim p :: after) r s = .next
      { s.abortedAt (asks before) (eventsWith v (before ++ .prim p :: after)) with
        samples := (effects before (s.start op)).samples
        draws := (effects before (s.start op)).draws } := by
  have hok : (s.start op).pinsAnswerOk (asks before) := fun _ => h.2.1
  have hanswer : (effects before (s.start op)).answer = .fail := answer_effects_of_pinFailsAt h
  have hfails : attempt p (effects before (s.start op)) = .aborted _ := if_pos (by simp [hp, hanswer])
  simp only [complete, run_append_ok _ hok, run, hfails]
  unfold raisePinError
  simp only [State.abortedAt, failAt_asks v before after hp]
  simp [htrace]

/-- Settles O49: the seven places of the failure; the sample is drawn before the last two (R262, log 27). -/
theorem readFailsAtStep : Obligations.ReadFailsAtStep := by
  intro type s n hs hn h
  have hcut : ∀ (before after : List Micro) (p : Prim), readSteps s.cfg type = before ++ .prim p :: after →
      p.fallible = true → asks before = n →
      (effects before (s.start (.read type))).trace = s.trace ++ eventsWith s.sampleByte before →
      exec (.read type) s = .next
        { s.abortedAt n (readEvents s.cfg.delays type s.sampleByte) with
          samples := (effects before (s.start (.read type))).samples
          draws := (effects before (s.start (.read type))).draws } := by
    intro before after p hsteps hp hasks htrace
    subst hasks
    rw [exec_of_admitted (i := .read type) (refuseSingle_none hs) rfl, stepsOf, ← eventsWith_readSteps, hsteps]
    exact complete_aborts_at s.sampleByte hp h htrace
  interval_cases n
  · exact hcut ((readSteps s.cfg type).take 0) _ _ rfl rfl rfl (effects_trace rfl _ _)
  · exact hcut ((readSteps s.cfg type).take 1) _ _ rfl rfl rfl (effects_trace rfl _ _)
  · exact hcut ((readSteps s.cfg type).take 2) _ _ rfl rfl rfl (effects_trace rfl _ _)
  · exact hcut ((readSteps s.cfg type).take 3) _ _ rfl rfl rfl (effects_trace rfl _ _)
  · exact hcut ((readSteps s.cfg type).take 5) _ _ rfl rfl rfl (effects_trace rfl _ _)
  · refine (hcut ((readSteps s.cfg type).take 6) _ _ rfl rfl rfl ?_).trans ?_
    · simp [effects, readSteps, pin, delay, Prim.effect, Prim.event, eventsWith, State.sampleByte]
    · simp [effects, readSteps, pin, delay, Prim.effect]
  · refine (hcut ((readSteps s.cfg type).take 7) _ _ rfl rfl rfl ?_).trans ?_
    · simp [effects, readSteps, pin, delay, Prim.effect, Prim.event, eventsWith, State.sampleByte]
    · simp [effects, readSteps, pin, delay, Prim.effect]

end Sys2Proof.Machine
end

section
/-! # Commands and geometry (R2, R120 to R123, R197, R206, R269, R270) -/

namespace Sys2Proof.Machine

/-! ## Command rows -/

/-- Settles O13: a row and `command(c)` issue the same command, and an answer does not depend on the name the operation
was issued under. -/
theorem commandRowsAreCommands : Obligations.CommandRowsAreCommands := by
  intro i c s h
  rw [exec_eq_issueCommand h, exec_eq_issueCommand (i := .command c) rfl, issueCommand, issueCommand,
    complete_name i (.command c)]

/-- The admitted modes have no bit of `A0` (R197). -/
theorem setMode_opcode {cfg : Config} {mode : Byte} (h : 4 ≤ mode.toNat ∧ mode.toNat ≤ 7) :
    (Command.setMode mode).opcode cfg = BitVec.ofNat 8 (0xA0 + mode.toNat) := by
  rw [Command.opcode]
  revert mode
  decide

/-- A command outside its domain is refused where a single bus operation would be admitted (R182, R270). -/
theorem exec_refused_of_operand {s : State} {i : Instr} {c : Command} {r : Refusal} (h : i.toCommand = some c)
    (hs : s.accepts) (hc : refuseOperand c = some r) : exec i s = .refused r := by
  rw [exec_eq_issueCommand h, issueCommand, refuseSingle_none hs, hc, admitted_none, admitted_some]

/-- Settles O18: the domain is the model's `modeInDomain`, and the byte of an admitted mode is a sum. -/
theorem setModeByDomain : Obligations.SetModeByDomain := by
  intro mode s hs
  refine ⟨fun hlow hhigh h => ?_, fun hout => ?_⟩
  · have hmode := And.intro hlow hhigh
    have hc : refuseOperand (.setMode mode) = none := if_pos (modeInDomain_iff.2 hmode)
    exact exec_sendsFrame rfl hc (setMode_opcode hmode) rfl hs h
  · have hdomain : ¬ modeInDomain mode = true := by
      rw [modeInDomain_iff]
      omega
    have hc : refuseOperand (.setMode mode) = some .modeDomain := if_neg hdomain
    exact ⟨exec_refused_of_operand rfl hs hc, exec_refused_of_operand rfl hs hc⟩

/-- Settles O19: seventeen bytes of ten events each. -/
theorem grayScaleTableCompletes : Obligations.GrayScaleTableCompletes := by
  intro t s hs h
  have hlength : t.toList.length = 16 := t.length_toList
  refine ⟨_, exec_sendsFrame (args := t.toList) rfl rfl rfl rfl hs (by rw [hlength]; exact h), rfl, ?_⟩
  simp [hlength]

/-! ## `best_fit_x` -/

section bestFit

variable {s : State} {r : Rect} {n : Int}

/-- After a completed `best_fit_x` (R120). -/
def State.fitted (s : State) (r : Rect) (n : Int) : State :=
  { s with seq := .idle, result := some (.okRect (alignX r n)) }

theorem refusalOf_bestFitX (hf : s.fatal = none) (hn : 0 < n) :
    refusalOf s (.bestFitX r n) = if isEmptyRect r then some .emptyRect else none := by
  rw [refusalOf, refuseHalted_none hf, if_neg (not_le.2 hn)]
  rfl

theorem exec_bestFitX_ok (hf : s.fatal = none) (hn : 0 < n) (hw : 0 < r.w) (hh : 0 < r.h) :
    exec (.bestFitX r n) s = .next (s.fitted r n) := by
  have hr : refusalOf s (.bestFitX r n) = none := by
    rw [refusalOf_bestFitX hf hn, isEmptyRect_eq_false.2 ⟨hw, hh⟩]
    rfl
  rw [exec_of_admitted hr (if_neg (not_le.2 hn))]
  rfl

theorem exec_bestFitX_contract (hf : s.fatal = none) (hn : n ≤ 0) :
    exec (.bestFitX r n) s = .next (raiseFatal .contract (s.start (.bestFitX r n))) := by
  have hr : refusalOf s (.bestFitX r n) = none := by
    rw [refusalOf, refuseHalted_none hf, if_pos hn]
    rfl
  have hk : fatalOf s (.bestFitX r n) = some .contract := if_pos hn
  simp [exec_eq, hr, hk, halt]

end bestFit

/-- Settles O28: `best_fit_x` has no step, and its result is the aligned rectangle. -/
theorem bestFitCompletes : Obligations.BestFitCompletes := fun _ _ _ => exec_bestFitX_ok

/-- Settles O30: the fault is met before the empty rectangle is looked at (log 13). -/
theorem nonPositiveSpanHalts : Obligations.NonPositiveSpanHalts := fun _ _ _ => exec_bestFitX_contract

/-! ### The laws of the aligned rectangle (R123) -/

section laws

variable {r : Rect} {n : Int}

theorem alignX_right : (alignX r n).x + (alignX r n).w = ceilDiv (r.x + r.w) n * n := by
  simp only [alignX]
  omega

theorem alignX_x_emod : (alignX r n).x % n = 0 := Int.mul_emod_left _ n

theorem alignX_right_emod : ((alignX r n).x + (alignX r n).w) % n = 0 := by
  rw [alignX_right]
  exact Int.mul_emod_left _ n

theorem alignX_x_le (hn : 0 < n) : (alignX r n).x ≤ r.x := (le_floorDiv_iff hn).1 le_rfl

/-- The next multiple after the floor is past the dividend. -/
theorem lt_alignX_x_add (hn : 0 < n) : r.x < (alignX r n).x + n := by
  have h : ¬ floorDiv r.x n + 1 ≤ floorDiv r.x n := by omega
  rw [le_floorDiv_iff hn, Int.add_mul, Int.one_mul] at h
  exact not_le.1 h

theorem le_alignX_right (hn : 0 < n) : r.x + r.w ≤ (alignX r n).x + (alignX r n).w := by
  rw [alignX_right]
  exact (ceilDiv_le_iff hn).1 le_rfl

/-- The multiple before the ceiling is below the dividend. -/
theorem alignX_right_lt (hn : 0 < n) : (alignX r n).x + (alignX r n).w < r.x + r.w + n := by
  have h : ¬ ceilDiv (r.x + r.w) n ≤ ceilDiv (r.x + r.w) n - 1 := by omega
  rw [ceilDiv_le_iff hn, Int.sub_mul, Int.one_mul, ← alignX_right] at h
  omega

theorem alignX_w : (alignX r n).w = (ceilDiv (r.x + r.w) n - floorDiv r.x n) * n := by
  rw [Int.sub_mul]
  rfl

theorem alignX_w_emod : (alignX r n).w % n = 0 := by
  rw [alignX_w]
  exact Int.mul_emod_left _ n

/-- A multiple of `n` strictly between two others is the one in the middle. -/
theorem mul_eq_of_between {q n : Int} (hn : 0 < n) (hlow : 0 < q * n) (hhigh : q * n < 2 * n) : q * n = n := by
  have hq : 0 < q := pos_of_mul_pos_left hlow hn.le
  have hq' : q < 2 := lt_of_mul_lt_mul_right hhigh hn.le
  rw [show q = 1 by omega, Int.one_mul]

theorem le_alignX_w (hn : 0 < n) (hw : 0 < r.w) : n ≤ (alignX r n).w := by
  have hpos : 0 < (alignX r n).w := by
    have := alignX_x_le (r := r) hn
    have := le_alignX_right (r := r) hn
    omega
  exact Int.le_of_dvd hpos (Int.dvd_of_emod_eq_zero alignX_w_emod)

theorem alignX_w_of_one (hn : 0 < n) (hw : r.w = 1) : (alignX r n).w = n := by
  have hleft := lt_alignX_x_add (r := r) hn
  have hright := alignX_right_lt (r := r) hn
  have hge := le_alignX_w hn (by omega : 0 < r.w)
  have hmul := alignX_w (r := r) (n := n)
  rw [hmul]
  exact mul_eq_of_between hn (by omega) (by omega)

/-- An aligned rectangle is its own best fit. -/
theorem alignX_eq_self (hx : r.x % n = 0) (hright : (r.x + r.w) % n = 0) : alignX r n = r := by
  have hfloor : floorDiv r.x n * n = r.x := Int.ediv_mul_cancel (Int.dvd_of_emod_eq_zero hx)
  have hceil : ceilDiv (r.x + r.w) n * n = r.x + r.w := by
    rw [ceilDiv, Int.neg_mul, Int.ediv_mul_cancel (Int.dvd_neg.2 (Int.dvd_of_emod_eq_zero hright)), Int.neg_neg]
  simp only [alignX, hfloor, hceil, add_sub_cancel_left]

theorem alignX_alignX : alignX (alignX r n) n = alignX r n := alignX_eq_self alignX_x_emod alignX_right_emod

end laws

/-- Settles O29: the laws of the aligned rectangle; its own best fit is computed by the same operation. -/
theorem bestFitLaws : Obligations.BestFitLaws := by
  intro r n s hf hn hw hh
  have hleft := alignX_x_le (r := r) hn
  have hleft' := lt_alignX_x_add (r := r) hn
  have hright := le_alignX_right (r := r) hn
  have hright' := alignX_right_lt (r := r) hn
  have hwidth := le_alignX_w hn hw
  have hagain : exec (.bestFitX (alignX r n) n) s = .next (s.fitted r n) := by
    rw [exec_bestFitX_ok (r := alignX r n) hf hn (by omega) hh, State.fitted, alignX_alignX]
    rfl
  refine ⟨alignX r n, _, exec_bestFitX_ok hf hn hw hh, rfl, alignX_x_emod, alignX_right_emod, hleft, hright, rfl, rfl,
    by omega, by omega, hwidth, alignX_w_emod, by omega, hagain, fun hx hw' => ?_, alignX_w_of_one hn, fun hone => ?_⟩
  · exact alignX_eq_self hx (by rw [Int.add_emod, hx, hw']; rfl)
  · subst hone
    exact alignX_eq_self (Int.emod_one _) (Int.emod_one _)

theorem isEmptyRect_iff {r : Rect} : isEmptyRect r = true ↔ r.w ≤ 0 ∨ r.h ≤ 0 := by
  simp [isEmptyRect]

/-- Settles O45: both operations check the rectangle last. -/
theorem emptyRectRefuses : Obligations.EmptyRectRefuses := by
  intro r n s hr
  have hempty : isEmptyRect r = true := isEmptyRect_iff.2 hr
  refine ⟨fun hf hn => exec_refused ?_, fun hs => exec_refused ?_⟩
  · rw [refusalOf_bestFitX hf hn, hempty]
    rfl
  · rw [refusalOf, refuseSingle_none hs, hempty]
    rfl

end Sys2Proof.Machine
end

section
/-! # The refresh engine (R230 to R243)

An admitted `refresh` inside the buffer is its step list; what it sends depends on the aligned rectangle and the pixels
inside it. -/

namespace Sys2Proof.Machine

variable {s : State} {dirty : Rect}

/-! ## The stream (R64, R236, R239) -/

section stream

variable (cfg : Config) (fb : Memory) (a : Rect)

theorem length_rowBytes_of_columns (ha : a.w % 4 = 0) (y : Int) : (rowBytes cfg fb a y).length = (a.w / 2).toNat := by
  rw [length_rowBytes]
  omega

/-- Two pixels of a row for each streamed byte (R239). -/
theorem length_streamBytes_of_columns (ha : a.w % 4 = 0) :
    (streamBytes cfg fb a).length = (a.w / 2).toNat * a.h.toNat := by
  rw [streamBytes, length_flatMap_const _ _ (fun _ => length_rowBytes_of_columns cfg fb a ha _), List.length_range,
    Nat.mul_comm]

theorem groupBytes_getElem? (x0 y : Int) {j : Nat} (hj : j < 2) :
    (groupBytes cfg fb x0 y)[j]? = some (streamByte (pixel cfg fb (x0 + 2 * j) y) (pixel cfg fb (x0 + 2 * j + 1) y)) := by
  interval_cases j
  · simp [groupBytes]
  · simp [groupBytes, Int.add_assoc]

theorem rowBytes_getElem? (y : Int) {g j : Nat} (hg : (g : Int) < a.w / 4) (hj : j < 2) :
    (rowBytes cfg fb a y)[2 * g + j]? = (groupBytes cfg fb (a.x + 4 * g) y)[j]? := by
  rw [rowBytes, Nat.mul_comm 2 g, getElem?_flatMap_const _ 2 (fun _ => rfl) _ _ _ hj,
    List.getElem?_range (by omega : g < (a.w / 4).toNat)]
  rfl

theorem streamBytes_getElem? (ha : a.w % 4 = 0) {r k : Nat} (hr : (r : Int) < a.h) (hk : k < (a.w / 2).toNat) :
    (streamBytes cfg fb a)[r * (a.w / 2).toNat + k]? = (rowBytes cfg fb a (a.y + r))[k]? := by
  rw [streamBytes, getElem?_flatMap_const _ _ (fun _ => length_rowBytes_of_columns cfg fb a ha _) _ _ _ hk,
    List.getElem?_range (by omega : r < a.h.toNat)]
  rfl

end stream

/-- Settles O33: a byte of the stream is one of its row, and a byte of the row is one of its group. -/
theorem streamIsRowMajor : Obligations.StreamIsRowMajor := by
  intro cfg fb a r g j ha hr hg hj
  refine ⟨length_streamBytes_of_columns cfg fb a ha, ?_⟩
  have hk : 2 * g + j < (a.w / 2).toNat := by omega
  rw [Nat.add_assoc, streamBytes_getElem? cfg fb a ha hr hk, rowBytes_getElem? cfg fb a _ hg hj,
    groupBytes_getElem? cfg fb _ _ hj]
  rfl

theorem packUnmasked_eq (pa pb : Byte) : packUnmasked pa pb = BitVec.ofNat 8 (pa.toNat <<< 4 ||| pb.toNat) := by
  simp [packUnmasked, BitVec.ofNat_or, ofNat_shiftLeft]

/-- Settles O35: whatever the open choice is, it is between the packing and the truncated formula (log 10). -/
theorem widePixelsGiveOneOfTwoBytes : Obligations.WidePixelsGiveOneOfTwoBytes := by
  intro pa pb
  have hpack : pack pa pb = BitVec.ofNat 8 (16 * (pa.toNat % 16) + pb.toNat % 16) := by
    rw [← toNat_pack, BitVec.ofNat_toNat, BitVec.setWidth_eq]
  rw [← hpack, ← packUnmasked_eq, streamByte]
  split
  · exact .inl rfl
  · split
    · exact .inl rfl
    · exact .inr rfl

/-! ## Admission and fault -/

theorem refusalOf_refresh (hs : s.accepts) (hw : 0 < dirty.w) (hh : 0 < dirty.h) :
    refusalOf s (.refresh dirty) = none := by
  rw [refusalOf, refuseSingle_none hs, isEmptyRect_eq_false.2 ⟨hw, hh⟩]
  rfl

/-- An admitted `refresh` whose aligned rectangle lies inside the buffer runs its steps (R231). -/
theorem exec_refresh_inside (hs : s.accepts) (hw : 0 < dirty.w) (hh : 0 < dirty.h)
    (hin : rectInBuffer s.cfg (alignX dirty 4) = true) :
    exec (.refresh dirty) s = complete (.refresh dirty) (refreshSteps s.cfg s.fb (alignX dirty 4)) .ok s :=
  exec_of_admitted (refusalOf_refresh hs hw hh) (if_pos hin)

/-- One whose aligned rectangle leaves the buffer halts the block (R233, R263). -/
theorem exec_refresh_outside (hs : s.accepts) (hw : 0 < dirty.w) (hh : 0 < dirty.h)
    (hout : ¬ rectInBuffer s.cfg (alignX dirty 4) = true) :
    exec (.refresh dirty) s = .next (raiseFatal .bounds (s.start (.refresh dirty))) := by
  have hk : fatalOf s (.refresh dirty) = some .bounds := if_neg hout
  simp [exec_eq, refusalOf_refresh hs hw hh, hk, halt]

/-- Settles O40: a rectangle past one of the four edges is not inside the buffer. -/
theorem refreshOutOfBoundsHalts : Obligations.RefreshOutOfBoundsHalts := by
  intro dirty s hs hw hh hedge
  refine exec_refresh_outside hs hw hh ?_
  simp only [rectInBuffer, Bool.and_eq_true, decide_eq_true_eq]
  change ¬ (((0 ≤ (alignX dirty 4).x ∧ _) ∧ 0 ≤ dirty.y) ∧ dirty.y + dirty.h ≤ _)
  omega

/-- Aligning to columns of a width of whole columns stays inside the buffer (R68). -/
theorem rectInBuffer_alignX {cfg : Config} (hcols : cfg.fbWidth % 4 = 0) (h : rectInBuffer cfg dirty = true) :
    rectInBuffer cfg (alignX dirty 4) = true := by
  simp only [rectInBuffer, Bool.and_eq_true, decide_eq_true_eq] at h ⊢
  obtain ⟨⟨⟨hx, hright⟩, hy⟩, hbottom⟩ := h
  have hfloor : 0 ≤ floorDiv dirty.x 4 := (le_floorDiv_iff (by decide)).2 (by omega)
  have hceil : ceilDiv (dirty.x + dirty.w) 4 ≤ cfg.fbWidth / 4 := (ceilDiv_le_iff (by decide)).2 (by omega)
  refine ⟨⟨⟨?_, ?_⟩, hy⟩, hbottom⟩
  · exact Int.mul_nonneg hfloor (by decide)
  · rw [alignX_right]
    omega

/-- Settles O39: such a `refresh` meets no fatal fault, and none of its steps sets the flag. -/
theorem alignedRectStaysInside : Obligations.AlignedRectStaysInside := by
  intro dirty s t hcols hin h
  have hk : fatalOf s (.refresh dirty) = none := if_pos (rectInBuffer_alignX hcols hin)
  obtain ⟨hf, -, ⟨-, rfl⟩ | ⟨-, before, p, after, -, -, rfl⟩ | ⟨k, hk', -⟩⟩ := exec_next h
  · simp [hf]
  · simp [hf]
  · rw [hk] at hk'
    cases hk'

/-! ## Completion and failure -/

/-- After a completed `refresh` of the aligned rectangle `a` (R231, R235, R236). -/
def State.refreshed (s : State) (a : Rect) : State :=
  s.completed
    { s.pins with
      dir := some .output, dc := some .high, cs := some .high, wr := some .high,
      dout := (streamBytes s.cfg s.fb a).getLast? }
    (refreshEvents s.cfg a (streamBytes s.cfg s.fb a)) (52 + 3 * (streamBytes s.cfg s.fb a).length) .ok

theorem exec_refresh_ok (hs : s.accepts) (hw : 0 < dirty.w) (hh : 0 < dirty.h)
    (hin : rectInBuffer s.cfg (alignX dirty 4) = true)
    (h : s.pinsAnswerOk (52 + 3 * (streamBytes s.cfg s.fb (alignX dirty 4)).length)) :
    exec (.refresh dirty) s = .next (s.refreshed (alignX dirty 4)) := by
  obtain ⟨-, -, hclosed⟩ := id hs
  rw [← asks_refreshSteps] at h
  rw [exec_refresh_inside hs hw hh hin, complete_ok 0 (noSample_refreshSteps _ _ _) h]
  simp [State.refreshed, State.completed, after_refreshEvents, streamBytes_ne_nil hw hh, hclosed]

/-- Settles O31: the steps run, and the last byte streamed stays on the bus. -/
theorem refreshCompletes : Obligations.RefreshCompletes := fun _ _ => exec_refresh_ok

/-- Settles O32: the transfers of the events, the window's bytes written as naturals. -/
theorem refreshTransfers : Obligations.RefreshTransfers := by
  rintro dirty a s hs hw hh rfl hin h
  refine ⟨_, exec_refresh_ok hs hw hh hin h, ?_⟩
  have htransfers := transfersOf_append s.trace
    (refreshEvents s.cfg (alignX dirty 4) (streamBytes s.cfg s.fb (alignX dirty 4)))
  rw [transfersFrom_refreshEvents, ← List.append_assoc] at htransfers
  simp only [← windowField_eq]
  exact htransfers

/-- Settles O50: the steps are cut at the `n`-th fallible one, wherever it lies. -/
theorem refreshFailsAtStep : Obligations.RefreshFailsAtStep := by
  intro dirty s n hs hw hh hin hn h
  rw [← asks_refreshSteps] at hn
  rw [exec_refresh_inside hs hw hh hin, ← eventsWith_refreshSteps 0]
  exact complete_fails 0 (noSample_refreshSteps _ _ _) h hn

/-- A `refresh` that returns Ok ran all its steps. -/
theorem refresh_trace {t : State} (h : exec (.refresh dirty) s = .next t) (hok : t.result = some .ok) :
    t.trace = s.trace ++ refreshEvents s.cfg (alignX dirty 4) (streamBytes s.cfg s.fb (alignX dirty 4)) := by
  obtain ⟨-, -, ⟨-, rfl⟩ | ⟨-, before, p, after, -, -, rfl⟩ | ⟨k, -, rfl⟩⟩ := exec_next h
  · rw [← eventsWith_refreshSteps 0]
    exact effects_trace (noSample_refreshSteps _ _ _) 0 (s.start (.refresh dirty))
  · cases hok
  · cases hok

/-- Settles O37: the events depend on the parameters, the buffer and the rectangle, which `refresh` leaves unchanged. -/
theorem refreshIsIdempotent : Obligations.RefreshIsIdempotent := by
  intro dirty s t u hst htu ht hu
  obtain ⟨hfb, hcfg, -⟩ := exec_frame hst
  refine ⟨_, refresh_trace hst ht, ?_⟩
  rw [refresh_trace htu hu, hfb, hcfg]

theorem delayCycles_frameEvents (d : DelayCounts) (o : Byte) (args : List Byte) :
    delayCycles (frameEvents d o args) = (1 + args.length) * (d.dAs + d.dWl + d.dWh) := by
  have hargs : delayCycles (args.flatMap (writeEvents d .data)) = args.length * (d.dAs + d.dWl + d.dWh) := by
    induction args with
    | nil => simp [delayCycles]
    | cons a rest ih => simp [ih]; ring
  simp [frameEvents, hargs, Nat.add_mul]

/-- Seven single writes and one batch (R307). -/
theorem delayCycles_refreshEvents (cfg : Config) (a : Rect) (bytes : List Byte) :
    delayCycles (refreshEvents cfg a bytes) =
      7 * (cfg.delays.dAs + cfg.delays.dWl + cfg.delays.dWh) + cfg.delays.dBas +
        bytes.length * (cfg.delays.dBwl + cfg.delays.dBwh) := by
  simp only [refreshEvents, delayCycles_append, delayCycles_frameEvents, delayCycles_batchEvents, List.length_cons,
    List.length_nil]
  ring

/-- Settles O41: the delays of the events, with the number of streamed bytes of whole columns. -/
theorem refreshDelaySum : Obligations.RefreshDelaySum := by
  intro dirty s t h hok
  rw [refresh_trace h hok, delayCycles_append, delayCycles_refreshEvents,
    length_streamBytes_of_columns s.cfg s.fb (alignX dirty 4) alignX_w_emod, ← Nat.add_assoc, ← Nat.add_assoc]
  rfl

/-! ## What a `refresh` depends on -/

/-- Settles O36: admission looks at the session alone, and the steps at the aligned rectangle. -/
theorem refreshDependsOnAlignedRect : Obligations.RefreshDependsOnAlignedRect := by
  intro d1 d2 s hw1 hh1 hw2 hh2 heq hin
  cases hr : refuseSingle s with
  | some r =>
    have hr1 : refusalOf s (.refresh d1) = some r := by rw [refusalOf, hr]; rfl
    have hr2 : refusalOf s (.refresh d2) = some r := by rw [refusalOf, hr]; rfl
    rw [exec_refused hr1, exec_refused hr2]
  | none =>
    have hs : s.accepts := accepts_of_refuseSingle hr
    rw [exec_refresh_inside hs hw1 hh1 hin, exec_refresh_inside hs hw2 hh2 (heq ▸ hin), heq,
      complete_name (.refresh d1) (.refresh d2)]

/-- A run neither reads nor writes the pixel buffer. -/
theorem run_fb (ms : List Micro) (s : State) (m : Memory) :
    run ms { s with fb := m } = (run ms s).map fun t => { t with fb := m } := by
  induction ms generalizing s with
  | nil => rfl
  | cons step rest ih =>
    cases step with
    | prim p =>
      have hattempt : attempt p { s with fb := m } = (attempt p s).map fun t => { t with fb := m } := by
        have hanswer : State.answer { s with fb := m } = s.answer := rfl
        unfold attempt
        rw [hanswer]
        split
        · rfl
        · cases p <;> rfl
      simp only [run, hattempt]
      cases attempt p s with
      | done t => exact ih t
      | aborted t => rfl
    | setBatch b => exact ih { s with batchOpen := b }
    | setReady => exact ih { s with session := .ready }

theorem complete_fb (op : Instr) (ms : List Micro) (r : Result) (s : State) (m : Memory) :
    ∃ t, complete op ms r s = .next t ∧ complete op ms r { s with fb := m } = .next { t with fb := m } := by
  have hstart : State.start { s with fb := m } op = { s.start op with fb := m } := rfl
  simp only [complete, hstart, run_fb]
  cases run ms (s.start op) with
  | done t => exact ⟨_, rfl, rfl⟩
  | aborted t => exact ⟨_, rfl, rfl⟩

/-- Buffers that agree on the pixels of a rectangle give the same stream (R239). -/
theorem streamBytes_congr {cfg : Config} {m fb : Memory} {a : Rect} (hcols : a.w % 4 = 0)
    (h : ∀ x y : Int, a.x ≤ x → x < a.x + a.w → a.y ≤ y → y < a.y + a.h → pixel cfg m x y = pixel cfg fb x y) :
    streamBytes cfg m a = streamBytes cfg fb a := by
  refine List.flatMap_congr fun r hr => List.flatMap_congr fun g hg => ?_
  have hr := List.mem_range.1 hr
  have hg := List.mem_range.1 hg
  have hpixel : ∀ k : Nat, k < 4 →
      pixel cfg m (a.x + 4 * g + k) (a.y + r) = pixel cfg fb (a.x + 4 * g + k) (a.y + r) := fun k hk =>
    h _ _ (by omega) (by omega) (by omega) (by omega)
  have h0 := hpixel 0 (by decide)
  have h1 := hpixel 1 (by decide)
  have h2 := hpixel 2 (by decide)
  have h3 := hpixel 3 (by decide)
  simp only [Nat.cast_zero, Int.add_zero, Nat.cast_one, Nat.cast_ofNat] at h0 h1 h2 h3
  rw [groupBytes, groupBytes, h0, h1, h2, h3]

/-- Settles O38: the fault looks at no pixel, the steps at those of the aligned rectangle, and a run at none. -/
theorem refreshReadsAlignedPixelsOnly : Obligations.RefreshReadsAlignedPixelsOnly := by
  intro dirty s m hs hw hh hagree
  have hs' : State.accepts { s with fb := m } := hs
  by_cases hin : rectInBuffer s.cfg (alignX dirty 4) = true
  · have hstream : streamBytes s.cfg m (alignX dirty 4) = streamBytes s.cfg s.fb (alignX dirty 4) :=
      streamBytes_congr alignX_w_emod hagree
    have hsteps : refreshSteps s.cfg m (alignX dirty 4) = refreshSteps s.cfg s.fb (alignX dirty 4) := by
      rw [refreshSteps, hstream, refreshSteps]
    have hexec := exec_refresh_inside hs' hw hh hin
    rw [exec_refresh_inside hs hw hh hin, hexec]
    simp only [hsteps]
    exact complete_fb _ _ _ s m
  · have hexec := exec_refresh_outside hs' hw hh hin
    exact ⟨_, exec_refresh_outside hs hw hh hin, hexec⟩

end Sys2Proof.Machine
end

section
/-! # The border of a rectangle (R134) -/

namespace Sys2Proof.Machine

/-- The pixels that `rect` writes, in its order (R134). -/
def borderPoints (r : Rect) : List (Int × Int) :=
  (span r.x (r.x + r.w - 1)).map (fun x => (x, r.y)) ++
  (span r.x (r.x + r.w - 1)).map (fun x => (x, r.y + r.h - 1)) ++
  (span r.y (r.y + r.h - 1)).map (fun y => (r.x, y)) ++
  (span r.y (r.y + r.h - 1)).map (fun y => (r.x + r.w - 1, y))

theorem rectPixels_eq (r : Rect) (v : Byte) : rectPixels r v = (borderPoints r).map fun p => (p.1, p.2, v) := by
  simp only [rectPixels, hlinePixels, vlinePixels, borderPoints, List.map_append, List.map_map]
  rfl

/-- The points of a rectangle that lie on one of its four edges (R134). -/
theorem mem_borderPoints {r : Rect} (hw : 0 < r.w) (hh : 0 < r.h) {x y : Int} :
    (x, y) ∈ borderPoints r ↔ r.x ≤ x ∧ x < r.x + r.w ∧ r.y ≤ y ∧ y < r.y + r.h ∧
      (x = r.x ∨ x = r.x + r.w - 1 ∨ y = r.y ∨ y = r.y + r.h - 1) := by
  have hx : ∀ x, x ∈ span r.x (r.x + r.w - 1) ↔ r.x ≤ x ∧ x ≤ r.x + r.w - 1 := fun x => mem_span (by omega)
  have hy : ∀ y, y ∈ span r.y (r.y + r.h - 1) ↔ r.y ≤ y ∧ y ≤ r.y + r.h - 1 := fun y => mem_span (by omega)
  simp only [borderPoints, List.mem_append, List.mem_map, Prod.mk.injEq, hx, hy]
  constructor
  · rintro (((⟨_, h, rfl, rfl⟩ | ⟨_, h, rfl, rfl⟩) | ⟨_, h, rfl, rfl⟩) | ⟨_, h, rfl, rfl⟩) <;> omega
  · rintro ⟨h1, h2, h3, h4, rfl | rfl | rfl | rfl⟩
    · exact .inl (.inr ⟨y, by omega, rfl, rfl⟩)
    · exact .inr ⟨y, by omega, rfl, rfl⟩
    · exact .inl (.inl (.inl ⟨x, by omega, rfl, rfl⟩))
    · exact .inl (.inl (.inr ⟨x, by omega, rfl, rfl⟩))

theorem inBuffer_of_mem_borderPoints {cfg : Config} {r : Rect} (hw : 0 < r.w) (hh : 0 < r.h)
    (hin : rectInBuffer cfg r = true) : ∀ p ∈ borderPoints r, inBuffer cfg p.1 p.2 = true := by
  intro p hp
  have hborder := (mem_borderPoints hw hh).1 hp
  simp only [rectInBuffer, inBuffer, Bool.and_eq_true, decide_eq_true_eq] at hin ⊢
  omega

theorem step_draw {s : State} {d : Draw} {rest : List HostMove} {fb : Memory} (hscript : s.script = .draw d :: rest)
    (hidle : s.seq = .idle) (hdraw : drawOn s.cfg d s.fb = .ok fb) :
    step s = .next { s with fb := fb, script := rest } := by
  simp only [step, hscript, drawStep, hidle, hdraw]

/-- Settles O58: inside the buffer `rect` plots its border points, and a plot writes those and no other byte. -/
theorem rectDrawsBorder : Obligations.RectDrawsBorder := by
  intro r v rest s hscript hidle hwf hw hh hin
  obtain ⟨fb, hplot, hread⟩ := plot_ok (v := colorByte v) (borderPoints r) s.fb hwf
    (inBuffer_of_mem_borderPoints hw hh hin)
  rw [← rectPixels_eq] at hplot
  refine ⟨_, step_draw hscript hidle hplot, fun k => ?_⟩
  simp only [hread]
  split
  · next hborder =>
    obtain ⟨⟨x, y⟩, hp, hk⟩ := hborder
    exact .inl ⟨colorByte_toNat v, x, y, hk, (mem_borderPoints hw hh).1 hp⟩
  · next hborder =>
    refine .inr ⟨rfl, fun x y hx hx' hy hy' hedge hk => hborder ⟨(x, y), ?_, hk⟩⟩
    exact (mem_borderPoints hw hh).2 ⟨hx, hx', hy, hy', hedge⟩

end Sys2Proof.Machine
end

section
/-! # Commands of the transfer trace (R103) -/

namespace Sys2Proof.Machine

variable {s : State}

/-- The transfers of one command's bytes are one command. -/
theorem framesOf_command (opcode : Byte) (args : List Byte) :
    framesOf (⟨.w, some .low, some opcode⟩ :: args.map fun a => ⟨.w, some .high, some a⟩) =
      [⟨some opcode, args.map some⟩] := by
  have hargs : (args.map fun a => (⟨.w, some .high, some a⟩ : Transfer)) =
      (args.map some).map fun b => ⟨.w, some .high, b⟩ := by
    rw [List.map_map]
    rfl
  rw [hargs, framesOf, dataBytes_data, framesOf_data]

theorem State.sentFrame_frames (opcode : Byte) (args : List Byte) :
    framesOf (s.sentFrame opcode args).transfers = framesOf s.transfers ++ [⟨some opcode, args.map some⟩] := by
  rw [State.sentFrame_transfers, framesOf_append_command, framesOf_command]

/-- Settles O59: what each of the three operations adds to the transfers adds a command, a byte, or nothing. -/
theorem commandBoundaries : Obligations.CommandBoundaries := by
  refine ⟨fun opcode args s hs h => ?_, fun b s fs f hinv hs h hframes => ?_, fun type s hs h => ?_,
    fun cfg data hgpio => ?_⟩
  · exact ⟨_, exec_rawCommand_ok hs h, State.sentFrame_frames opcode args⟩
  · refine ⟨_, exec_multiWriteByte_ok b hs h, ?_⟩
    rw [State.batched_transfers b hinv hs, framesOf_append_byte _ hframes]
  · refine ⟨_, exec_read_ok type hs h, ?_⟩
    rw [State.hasRead_transfers, framesOf_append_read]
  · exact if_pos ⟨rfl, hgpio.symm⟩

/-- A longer trace keeps a sent `SetRemapMode`: commands stay, and their bytes are only added to (R46, R103). -/
theorem State.remapModeSent_of_append {t : State} {es : List Event} (ht : t.trace = s.trace ++ es)
    (h : s.remapModeSent) : t.remapModeSent := by
  obtain ⟨f, hf, a, b, more, rfl⟩ := h
  obtain ⟨more', hmore⟩ := framesOf_append_mem (transfersFrom s.replay es) hf
  have htransfers : t.transfers = s.transfers ++ transfersFrom s.replay es := by
    rw [State.transfers, ht, transfersOf_append]
    rfl
  rw [← htransfers] at hmore
  exact ⟨_, hmore, a, b, more ++ more', rfl⟩

/-- Settles O60: the command is the last of the trace it completes, and every step only appends. -/
theorem sentRemapModeStaysInTrace : Obligations.SentRemapModeStaysInTrace := by
  refine ⟨fun inc colRemap nibbleRemap scanDir splitOddEven dualCom s hs h => ?_, fun s t hsent hstep => ?_, ?_, ?_⟩
  · refine ⟨_, exec_sendsFrame rfl rfl rfl rfl hs h, ?_⟩
    rw [State.remapModeSent, State.sentFrame_frames]
    exact ⟨_, List.mem_append_right _ (List.mem_singleton.2 rfl), _, _, [], rfl⟩
  · obtain ⟨es, hes⟩ := traceIsAppendOnly s t hstep
    exact State.remapModeSent_of_append hes hsent
  · rintro ⟨f, hf, -⟩
    cases hf
  · rintro ⟨f, hf, -⟩
    have hreset : State.reset.transfers = [] := transfersFrom_resetEvents Replay.initial Config.documented.delays
    rw [hreset] at hf
    cases hf

end Sys2Proof.Machine
end
